-- ==== Sys2Proof/Word.lean ====
section
/-! DEFINITION. The widths of ARV-CORE: the 32-bit word of a command, a register and a frame, the 16-bit sample
and the byte (spec/00_scope.md R7, R9). -/

namespace Sys2Proof

/-- A register, a command word or a frame word: `REG_BITS` = `FRAME_BITS` = 32 (00_scope R7). -/
abbrev Word := BitVec 32

/-- One channel's amplitude at one point in time: `SAMPLE_BITS` = 16, unsigned (00_scope R7, R12; 40_load_pack R79). -/
abbrev Sample := BitVec 16

/-- The smallest addressable unit of the Sample Buffer (20_memory R42). -/
abbrev Byte := BitVec 8

end Sys2Proof
end

