-- ==== Sys2Proof/Config.lean ====
section
/-! DEFINITION. The build parameters of ARV-CORE (spec/00_scope.md R7): what an implementation fixes. `CAP` and
`HAS_STRIP` are OPEN in the spec, so they are a value every statement quantifies over; `SKIP` is fixed. -/

namespace Sys2Proof

/-- The two open parameters of a build (00_scope R7; 93_implementation_defined I1, I2). They are constants: nothing in
the machine changes them (70_reset_and_hazards R144). -/
structure Config where
  /-- `CAP`, the capacity of the Sample Buffer in samples, as register 13 reads it (10_state R29). -/
  cap : Word
  /-- `HAS_STRIP`: whether the silence-stripped CRC32 variant is built (30_encoding R66). -/
  hasStrip : Bool
deriving DecidableEq, Repr

/-- The range the spec gives the parameter: 2 ≤ `CAP` ≤ 2^29 (00_scope R7, 92 D7). -/
abbrev Config.InRange (c : Config) : Prop := 2 ≤ c.cap.toNat ∧ c.cap.toNat ≤ 2 ^ 29

/-- The build that `State.reset` carries. DESIGN CHOICE (unsafe, log entry 1): the spec leaves both parameters open;
its test vectors need `CAP` ≥ 200 000 and take `HAS_STRIP` = 1. No statement rests on these two values. -/
def Config.standard : Config := { cap := 200000, hasStrip := true }

/-- `SKIP`, the frames of the guard window: 5 sectors of 588 frames (00_scope R7, 41_accuraterip R84). -/
def Config.skip : Nat := 5 * 588

/-- `MAX_TRACKS`, the upper bound of `total_tracks` (00_scope R7). -/
def Config.maxTracks : Nat := 99

end Sys2Proof
end

