-- ==== Sys2Proof/Syntax.lean ====
section
/-! DEFINITION. The commands of ARV-CORE as data: one constructor per row of spec/opcode_table.json, each operand at
exactly the width its format gives it (spec/30_encoding.md R61, R62). -/

namespace Sys2Proof

/-- The sixteen registers by the names of 10_state R14, in the order of their numbers 0 to 15. The register number of
`GET` is the only register operand of the command set (10_state R15). -/
inductive Reg where
  | status | errinfo | pos | nsamp | nframes | sumFrom | sumTo | csumLo
  | csumHi | arV1 | arV2 | crc32 | crc32ss | cap | config | skip
deriving DecidableEq, Repr

/-- The eleven commands (30_encoding R63). -/
inductive Instr where
  /-- `NOP`, format Z (43_sequencing R111). -/
  | nop
  /-- `CLEAR`, format Z (43_sequencing R113). -/
  | clear
  /-- `SETPOS track, total`, format P (40_load_pack R75). -/
  | setpos (track total : BitVec 8)
  /-- `PUSH sample`, format S (40_load_pack R74). -/
  | push (sample : Sample)
  /-- `SEAL`, format Z (40_load_pack R76). -/
  | sealBuffer
  /-- `AR`, format Z (41_accuraterip R85). -/
  | ar
  /-- `CRC`, format Z (42_crc32 R100). -/
  | crc
  /-- `ARCRC`, format Z (43_sequencing R112). -/
  | arcrc
  /-- `STRIP`, format Z (42_crc32 R102). -/
  | strip
  /-- `GET reg`, format G (43_sequencing R114). -/
  | get (reg : Reg)
  /-- `PEEKF index`, format X (40_load_pack R77). -/
  | peekf (index : BitVec 28)
deriving DecidableEq, Repr

end Sys2Proof
end

