-- ==== Sys2Proof/WellFormed.lean ====
section
/-! DEFINITION. Which commands a build has. The operands' ranges are their types (spec/30_encoding.md R62: every value
of a sub-field is a legal encoding, ranges such as 1 to 99 are checked by the command, not by the decoder), so the one
check left is the build option of R66. -/

namespace Sys2Proof

/-- A command is well-formed in a build when the build has it: all are, but `STRIP` where `HAS_STRIP` = 0
(30_encoding R66). -/
def Instr.wellFormed (hasStrip : Bool) : Instr → Bool
  | .nop => true
  | .clear => true
  | .setpos _ _ => true
  | .push _ => true
  | .sealBuffer => true
  | .ar => true
  | .crc => true
  | .arcrc => true
  | .strip => hasStrip
  | .get _ => true
  | .peekf _ => true

end Sys2Proof
end

