-- ==== Sys2Proof/Decode.lean ====
section
/-! DEFINITION. The decoder of 32-bit command words, total and rejecting by name (spec/30_encoding.md R60 to R68), the
encoder written from the same tables (R61, R63, R69), and the opcode table's rows as mask and match (R63). -/

namespace Sys2Proof

/-- Why a word is no command (30_encoding R64, R65, R66). Each raises `IllegalCommand` outside the FAULT phase. -/
inductive Illegal where
  /-- `OP` is 0xB to 0xF (R64). -/
  | reservedOpcode
  /-- a reserved bit of `ARG` is 1 (R65). -/
  | reservedBits
  /-- the word of `STRIP` where `HAS_STRIP` = 0 (R66). -/
  | stripNotBuilt
deriving DecidableEq, Repr

/-- `OP` = bits 31:28 (30_encoding R60). -/
def opField (w : Word) : BitVec 4 := w.extractLsb' 28 4

/-- `ARG` = bits 27:0 (30_encoding R60). -/
def argField (w : Word) : BitVec 28 := w.extractLsb' 0 28

/-- The register with a given number (10_state R14): all sixteen values name one (30_encoding R62). -/
def Reg.ofNum (n : BitVec 4) : Reg :=
  match n.toNat with
  | 0 => .status
  | 1 => .errinfo
  | 2 => .pos
  | 3 => .nsamp
  | 4 => .nframes
  | 5 => .sumFrom
  | 6 => .sumTo
  | 7 => .csumLo
  | 8 => .csumHi
  | 9 => .arV1
  | 10 => .arV2
  | 11 => .crc32
  | 12 => .crc32ss
  | 13 => .cap
  | 14 => .config
  | _ => .skip

/-- The number of a register (10_state R14). -/
def Reg.num : Reg → BitVec 4
  | .status => 0
  | .errinfo => 1
  | .pos => 2
  | .nsamp => 3
  | .nframes => 4
  | .sumFrom => 5
  | .sumTo => 6
  | .csumLo => 7
  | .csumHi => 8
  | .arV1 => 9
  | .arV2 => 10
  | .crc32 => 11
  | .crc32ss => 12
  | .cap => 13
  | .config => 14
  | .skip => 15

/-- Format Z: all of `ARG` is reserved (30_encoding R61, R65). -/
def decodeZ (i : Instr) (arg : BitVec 28) : Except Illegal Instr :=
  if arg = 0 then .ok i else .error .reservedBits

/-- Format P: `TRACK` = `ARG[7:0]`, `TOTAL` = `ARG[15:8]`, `ARG[27:16]` reserved. -/
def decodeP (arg : BitVec 28) : Except Illegal Instr :=
  if arg.extractLsb' 16 12 = 0 then .ok (.setpos (arg.extractLsb' 0 8) (arg.extractLsb' 8 8))
  else .error .reservedBits

/-- Format S: `SAMPLE` = `ARG[15:0]`, `ARG[27:16]` reserved. -/
def decodeS (arg : BitVec 28) : Except Illegal Instr :=
  if arg.extractLsb' 16 12 = 0 then .ok (.push (arg.extractLsb' 0 16)) else .error .reservedBits

/-- Format G: `REG` = `ARG[3:0]`, `ARG[27:4]` reserved. -/
def decodeG (arg : BitVec 28) : Except Illegal Instr :=
  if arg.extractLsb' 4 24 = 0 then .ok (.get (Reg.ofNum (arg.extractLsb' 0 4))) else .error .reservedBits

/-- `STRIP` is a reserved encoding where `HAS_STRIP` = 0 (30_encoding R66, R68). -/
def decodeStrip (hasStrip : Bool) (arg : BitVec 28) : Except Illegal Instr :=
  if arg = 0 then (if hasStrip then .ok .strip else .error .stripNotBuilt) else .error .reservedBits

/-- The decoder: a total function on 32-bit words that depends on no state, only on the build's `HAS_STRIP`
(30_encoding R68). -/
def decode (hasStrip : Bool) (w : Word) : Except Illegal Instr :=
  match (opField w).toNat with
  | 0 => decodeZ .nop (argField w)
  | 1 => decodeZ .clear (argField w)
  | 2 => decodeP (argField w)
  | 3 => decodeS (argField w)
  | 4 => decodeZ .sealBuffer (argField w)
  | 5 => decodeZ .ar (argField w)
  | 6 => decodeZ .crc (argField w)
  | 7 => decodeZ .arcrc (argField w)
  | 8 => decodeStrip hasStrip (argField w)
  | 9 => decodeG (argField w)
  | 10 => .ok (.peekf (argField w))
  | _ => .error .reservedOpcode

/-- A command word from its two fields (30_encoding R60): the opcode above the 28 bits of the operand. -/
def pack (op arg : Nat) : Word := BitVec.ofNat 32 (op * 2 ^ 28 + arg)

/-- The one word of a command, written as the sums of 30_encoding R69 (fields R61, opcodes R63). -/
def encode : Instr → Word
  | .nop => pack 0x0 0
  | .clear => pack 0x1 0
  | .setpos track total => pack 0x2 (total.toNat * 2 ^ 8 + track.toNat)
  | .push sample => pack 0x3 sample.toNat
  | .sealBuffer => pack 0x4 0
  | .ar => pack 0x5 0
  | .crc => pack 0x6 0
  | .arcrc => pack 0x7 0
  | .strip => pack 0x8 0
  | .get reg => pack 0x9 reg.num.toNat
  | .peekf index => pack 0xA index.toNat

/-- A row of the opcode map (30_encoding R63): `pattern` is the column the spec calls match. -/
structure Row where
  mnemonic : String
  mask : Word
  pattern : Word
deriving DecidableEq, Repr

/-- The row of 30_encoding R63 that a command belongs to. -/
def Instr.row : Instr → Row
  | .nop => ⟨"NOP", 0xFFFFFFFF, 0x00000000⟩
  | .clear => ⟨"CLEAR", 0xFFFFFFFF, 0x10000000⟩
  | .setpos _ _ => ⟨"SETPOS", 0xFFFF0000, 0x20000000⟩
  | .push _ => ⟨"PUSH", 0xFFFF0000, 0x30000000⟩
  | .sealBuffer => ⟨"SEAL", 0xFFFFFFFF, 0x40000000⟩
  | .ar => ⟨"AR", 0xFFFFFFFF, 0x50000000⟩
  | .crc => ⟨"CRC", 0xFFFFFFFF, 0x60000000⟩
  | .arcrc => ⟨"ARCRC", 0xFFFFFFFF, 0x70000000⟩
  | .strip => ⟨"STRIP", 0xFFFFFFFF, 0x80000000⟩
  | .get _ => ⟨"GET", 0xFFFFFFF0, 0x90000000⟩
  | .peekf _ => ⟨"PEEKF", 0xF0000000, 0xA0000000⟩

/-- The eleven rows of 30_encoding R63, in its order. -/
def opcodeRows : List Row :=
  [Instr.nop.row, Instr.clear.row, (Instr.setpos 0 0).row, (Instr.push 0).row, Instr.sealBuffer.row, Instr.ar.row,
   Instr.crc.row, Instr.arcrc.row, Instr.strip.row, (Instr.get .status).row, (Instr.peekf 0).row]

/-- The host's reading of an opcode-table word of `nbits` bits: every bit above `nbits` is 0, and the one command word
is decoded for the build that `State.reset` carries (`HAS_STRIP` = 1, log entry 1). -/
def decodeTableWord (nbits w : Nat) : Option Instr :=
  match decode Config.standard.hasStrip (BitVec.ofNat 32 (w % 2 ^ nbits)) with
  | .ok i => some i
  | .error _ => none

end Sys2Proof
end

