-- ==== Sys2Proof/Machine/State.lean ====
section
/-! DEFINITION. The state of ARV-CORE as plain data (spec/10_state.md, spec/20_memory.md R41), the reasons a step can
stop, and the state after reset (spec/10_state.md R33). -/

namespace Sys2Proof.Machine

/-- `STATUS.PHASE` (10_state R17, R18). -/
inductive Phase where
  | load | ready | stripped | fault
deriving DecidableEq, Repr

/-- The error kinds of 60_exceptions R122, in the order of their codes 1 to 9. -/
inductive ErrorKind where
  /-- 1: a track number or a total out of bounds, by `SETPOS`. -/
  | invalidArgument
  /-- 2: kept for the host's numbering, never raised by the block (R123). -/
  | unsupportedFormat
  /-- 3: kept for the host's numbering, never raised by the block (R123). -/
  | ioError
  /-- 4: the buffer is full, by `PUSH`. -/
  | allocationFailure
  /-- 5: kept for the host's numbering, never raised by the block (R123, 43_sequencing R115). -/
  | concurrencyFailure
  /-- 6: an odd number of samples, by `SEAL`. -/
  | oddSampleCount
  /-- 7: a command not legal in the phase, or its precondition flag 0. -/
  | sequence
  /-- 8: a word that is no command. -/
  | illegalCommand
  /-- 9: a frame index not below `NFRAMES`, by `PEEKF`. -/
  | badIndex
deriving DecidableEq, Repr

/-- The fields of `STATUS` (10_state R17). The reserved bits read 0 always, so they have no place here; the 32-bit word
is `Status.word` of Machine/Flags.lean. DESIGN CHOICE (safe, log entry 4): held as fields, read as a word. -/
structure Status where
  phase : Phase
  posValid : Bool
  arValid : Bool
  crcValid : Bool
  ssValid : Bool
  /-- `ERR`: none is code 0, no error recorded (10_state R20). -/
  err : Option ErrorKind
deriving DecidableEq, Repr

/-- A response of the command port (00_scope R8). -/
structure Response where
  err : BitVec 4
  data : Word
deriving DecidableEq, Repr

/-- The Sample Buffer as its bytes (20_memory R42): (byte address, byte) pairs, addresses strictly rising. An unlisted
address holds NO VALUE (10_state R30), so every listed byte is one that was written and no entry is redundant. -/
abbrev Memory := List Host.Cell

/-- The canonical form of the buffer's bytes: addresses strictly rising. -/
abbrev Memory.wf (m : Memory) : Prop := m.Pairwise (fun x y => x.1 < y.1)

/-- Why the model stops. Neither is an error of the spec (those are taken, 60_exceptions R130): both mark a state that
no run from reset reaches. -/
inductive Fault where
  /-- Raised by the reads of `PEEKF`, `AR`, `CRC`, `ARCRC` and `STRIP` when a byte they need, from `addr` on, holds no
  value: "nothing may read it, and no rule does" (10_state R30). Safe. -/
  | cellWithoutValue (addr : Nat)
  /-- Raised by the same reads and by the write of `PUSH` when the access at byte `addr` does not lie inside the
  `2 × CAP` bytes of the buffer (20_memory R41). Safe. -/
  | outsideBuffer (addr : Nat)
deriving DecidableEq, Repr

/-- Why the model gives an instruction no meaning. -/
inductive Refusal where
  /-- Raised by `exec` for an instruction that has no meaning yet; no arm raises it now. Safe. -/
  | notModelled (mnemonic : String)
deriving DecidableEq, Repr

/-- The state: registers 0 to 12 of 10_state R14, the Sample Buffer (R30), the last response of the command port
(00_scope R8), the build's constants, and the harness of 10_state R16 (the host's command list and its index). -/
structure State where
  /-- The build's constants, read by registers 13 and 14; no command writes them (70 R144). Log entry 1. -/
  cfg : Config
  /-- `STATUS`, x[0]. -/
  status : Status
  /-- `ERRINFO`, x[1] (R21). -/
  errinfo : Word
  /-- `POS`, x[2] (R22). -/
  pos : Word
  /-- `NSAMP`, x[3] (R23). -/
  nsamp : Word
  /-- `NFRAMES`, x[4] (R24). -/
  nframes : Word
  /-- `SUM_FROM`, x[5] (R25). -/
  sumFrom : Word
  /-- `SUM_TO`, x[6], signed two's complement (R25). -/
  sumTo : Word
  /-- `CSUM_LO`, x[7] (R26). -/
  csumLo : Word
  /-- `CSUM_HI`, x[8] (R26). -/
  csumHi : Word
  /-- `AR_V1`, x[9] (R27). -/
  arV1 : Word
  /-- `AR_V2`, x[10] (R27). -/
  arV2 : Word
  /-- `CRC32`, x[11] (R28). -/
  crc32 : Word
  /-- `CRC32_SS`, x[12] (R28). -/
  crc32ss : Word
  /-- `BUF`, as bytes (R30; 20_memory R42). -/
  buf : Memory
  /-- The response to the last transaction; none until there has been one (00_scope R8, 70 R142). Log entry 3. -/
  rsp : Option Response
  /-- The command words the host presents, in order: the harness of 10_state R16, outside the block. Log entry 2. -/
  program : List Word
  /-- The harness's index into `program` (10_state R16); the block itself has no program counter. -/
  pc : Nat
deriving DecidableEq, Repr

/-- `STATUS` after reset: phase LOAD, no flag, no error (10_state R33). -/
def Status.initial : Status :=
  { phase := .load, posValid := false, arValid := false, crcValid := false, ssValid := false, err := none }

/-- The state right after reset of a given build: 10_state R33 and 70_reset_and_hazards R141; the host has presented
nothing yet (70 R143). -/
def State.resetWith (cfg : Config) : State :=
  { cfg := cfg
    status := Status.initial
    errinfo := 0
    pos := 0
    nsamp := 0
    nframes := 0
    sumFrom := 0
    sumTo := 0
    csumLo := 0
    csumHi := 0
    arV1 := 0
    arV2 := 0
    crc32 := 0
    crc32ss := 0
    buf := []
    rsp := none
    program := []
    pc := 0 }

/-- The state right after reset (10_state R33), of the build that log entry 1 names. -/
def State.reset : State := State.resetWith Config.standard

end Sys2Proof.Machine
end

