-- ==== Sys2Proof/Machine/Flags.lean ====
section
/-! DEFINITION. The status word and its fields, and the error codes (spec/10_state.md R17 to R20,
spec/60_exceptions.md R122). -/

namespace Sys2Proof.Machine

/-- The two bits of `STATUS.PHASE` (10_state R17). -/
def Phase.code : Phase → BitVec 2
  | .load => 0
  | .ready => 1
  | .stripped => 2
  | .fault => 3

/-- The code of an error kind (60_exceptions R122). -/
def ErrorKind.code : ErrorKind → BitVec 4
  | .invalidArgument => 1
  | .unsupportedFormat => 2
  | .ioError => 3
  | .allocationFailure => 4
  | .concurrencyFailure => 5
  | .oddSampleCount => 6
  | .sequence => 7
  | .illegalCommand => 8
  | .badIndex => 9

/-- `STATUS.ERR`: 0 when no error is recorded (10_state R20). -/
def Status.errCode (st : Status) : BitVec 4 :=
  match st.err with
  | none => 0
  | some e => e.code

/-- `STATUS` as its 32-bit word (10_state R17), the more significant field first: bits 31:12 zero, 11:8 `ERR`, 7:6 zero,
5 `SS_VALID`, 4 `CRC_VALID`, 3 `AR_VALID`, 2 `POS_VALID`, 1:0 `PHASE`. -/
def Status.word (st : Status) : Word :=
  (0 : BitVec 20) ++ (st.errCode ++ ((0 : BitVec 2) ++ (BitVec.ofBool st.ssValid ++ (BitVec.ofBool st.crcValid ++
    (BitVec.ofBool st.arValid ++ (BitVec.ofBool st.posValid ++ st.phase.code))))))

/-- `STATUS` after fault entry with error `e`: phase FAULT, the four flags 0, `ERR` the code (60_exceptions R130). -/
def Status.faulted (e : ErrorKind) : Status :=
  { phase := .fault, posValid := false, arValid := false, crcValid := false, ssValid := false, err := some e }

end Sys2Proof.Machine
end

