-- ==== Sys2Proof/Machine/Ops.lean ====
section
/-! DEFINITION. The named operations every command is written over: the buffer's bytes (spec/20_memory.md), the
response and the command port (spec/00_scope.md R8, spec/10_state.md R16), fault entry and the return from it
(spec/60_exceptions.md R130, R132, R133), and the checks in the order of R127. -/

namespace Sys2Proof.Machine

/-- What a step answers. -/
abbrev Result := Host.Outcome State Fault Refusal

/-! ### The buffer's bytes (20_memory R42, R43) -/

/-- `BYTE(b)` (00_scope R10), none where the address holds no value. -/
def Memory.readByte : Memory → Nat → Option Byte
  | [], _ => none
  | (k, x) :: t, b => if k = b then some x else Memory.readByte t b

/-- The `n` bytes from address `a` up, in one walk along the rising addresses; none where one of them holds no value. -/
def Memory.readBytes : Memory → Nat → Nat → Option (List Byte)
  | _, _, 0 => some []
  | [], _, _ + 1 => none
  | (k, x) :: t, a, n + 1 =>
    if k = a then (Memory.readBytes t (a + 1) n).map (x :: ·)
    else if k < a then Memory.readBytes t a (n + 1)
    else none

/-- Writes one byte and keeps the addresses rising. -/
def Memory.writeByte : Memory → Nat → Byte → Memory
  | [], a, v => [(a, v)]
  | (k, x) :: t, a, v =>
    if a < k then (a, v) :: (k, x) :: t
    else if a = k then (a, v) :: t
    else (k, x) :: Memory.writeByte t a v

/-- Writes consecutive bytes from address `a` up. -/
def Memory.writeBytes (m : Memory) (a : Nat) : List Byte → Memory
  | [] => m
  | b :: bs => Memory.writeBytes (m.writeByte a b) (a + 1) bs

/-- The buffer that holds exactly the given bytes from address `a` up. -/
def Memory.ofBytes (a : Nat) : List Byte → Memory
  | [] => []
  | b :: bs => (a, b) :: Memory.ofBytes (a + 1) bs

/-- Bytes assembled little-endian: the sum of `BYTE(addr + k) · 2^(8k)` (00_scope R10). -/
def littleEndian : List Byte → Nat
  | [] => 0
  | b :: bs => b.toNat + 2 ^ 8 * littleEndian bs

/-- The two bytes of a sample, low byte first (20_memory R42). -/
def sampleBytes (x : Sample) : List Byte := [x.extractLsb' 0 8, x.extractLsb' 8 8]

/-- `Bytes(k)` of a sequence of samples: in sample order, low byte first (42_crc32 R97). -/
def bytesOf : List Sample → List Byte
  | [] => []
  | x :: xs => sampleBytes x ++ bytesOf xs

/-- A byte sequence seen as samples (20_memory R42): two bytes each, low byte first. -/
def samplesOf : List Byte → List Sample
  | b0 :: b1 :: t => BitVec.ofNat 16 (littleEndian [b0, b1]) :: samplesOf t
  | _ => []

/-- A byte sequence seen as frames (20_memory R43): four bytes each, little-endian. -/
def framesOf : List Byte → List Word
  | b0 :: b1 :: b2 :: b3 :: t => BitVec.ofNat 32 (littleEndian [b0, b1, b2, b3]) :: framesOf t
  | _ => []

/-! ### The buffer in the state -/

/-- Reads `n` bytes from byte address `a` up. Inside the buffer (20_memory R41) and below `NSAMP` samples every byte
holds a value; the two faults mark states no run reaches (10_state R30). -/
def State.loadBytes (s : State) (a n : Nat) : Except Fault (List Byte) :=
  if 2 * s.cfg.cap.toNat < a + n then .error (.outsideBuffer a)
  else
    match s.buf.readBytes a n with
    | some bs => .ok bs
    | none => .error (.cellWithoutValue a)

/-- `MemRead(addr, n)`, assembled little-endian (00_scope R10). -/
def State.memRead (s : State) (a n : Nat) : Except Fault Nat := (s.loadBytes a n).map littleEndian

/-- `Frame(j)` = `MemRead(4j, 4)`, the sample-frame packer (40_load_pack R73). -/
def State.frame (s : State) (j : Nat) : Except Fault Word := (s.memRead (4 * j) 4).map (BitVec.ofNat 32)

/-- `BUF[i] <- x`, that is `MemWrite(2i, 2, x)` (00_scope R10, 20_memory R45). -/
def State.storeSample (s : State) (i : Nat) (x : Sample) : Except Fault State :=
  if 2 * s.cfg.cap.toNat < 2 * i + 2 then .error (.outsideBuffer (2 * i))
  else .ok { s with buf := s.buf.writeBytes (2 * i) (sampleBytes x) }

/-! ### The command port -/

/-- Sets the response: `ERR` is `STATUS.ERR` as it stands after the command, `DATA` is given (00_scope R8). -/
def State.respond (s : State) (data : Word) : State := { s with rsp := some ⟨s.status.errCode, data⟩ }

/-- The command the host presents next, none when it presents no more (10_state R16). -/
def State.presented (s : State) : Option Word := s.program[s.pc]?

/-- Every transaction advances the harness's index by exactly 1 (10_state R16). -/
def State.advance (s : State) : State := { s with pc := s.pc + 1 }

/-- With no command presented the block does nothing and holds its state (70_reset_and_hazards R143, 60 R140). -/
def idle (s : State) : Result := .next s

/-- A command list with `w` at index `n`; indices the list did not reach are filled with `NOP`. -/
def placeCommand (w : Word) : List Word → Nat → List Word
  | [], 0 => [w]
  | [], n + 1 => 0 :: placeCommand w [] n
  | _ :: t, 0 => w :: t
  | x :: t, n + 1 => x :: placeCommand w t n

/-- The command word of an opcode-table word of `nbits` bits, the bits above `nbits` 0. -/
def commandWord (nbits w : Nat) : Word := BitVec.ofNat 32 (w % 2 ^ nbits)

/-! ### Fault entry and return (60_exceptions R130, R133; 43_sequencing R113) -/

/-- Releases the buffer and clears `POS`, `NSAMP`, `NFRAMES` and the eight result registers: the part fault entry and
`CLEAR` share. `STATUS`, `ERRINFO`, the response and the build's constants stay. -/
def State.release (s : State) : State :=
  { s with
    pos := 0, nsamp := 0, nframes := 0
    sumFrom := 0, sumTo := 0, csumLo := 0, csumHi := 0, arV1 := 0, arV2 := 0, crc32 := 0, crc32ss := 0
    buf := [] }

/-- The state fault entry leaves before the response (60_exceptions R130). -/
def State.enterFault (s : State) (e : ErrorKind) (info : Word) : State :=
  { s.release with status := Status.faulted e, errinfo := info }

/-- `raise e(info)`: fault entry, with the response (e, 0) (60_exceptions R130). -/
def raise (e : ErrorKind) (info : Word) (s : State) : Result := .next ((s.enterFault e info).respond 0)

/-- The return from a fault, and the end of any computation: every register and the buffer at their reset values
(43_sequencing R113, 10_state R33, 60_exceptions R133). -/
def State.cleared (s : State) : State := { s.release with status := Status.initial, errinfo := 0 }

/-! ### The checks (00_scope R11, 60_exceptions R127) -/

/-- In FAULT every word but a legal `GET` and `CLEAR` is ignored: no state changes, the response is (`STATUS.ERR`, 0)
(60_exceptions R132). Otherwise the command goes on. -/
def unlessFault (s : State) (body : Result) : Result :=
  if s.status.phase = .fault then .next (s.respond 0) else body

/-- The phase check: `Sequence(cmd)` outside phase `p` (30_encoding R71). -/
def requirePhase (p : Phase) (cmd : Word) (s : State) (body : Result) : Result :=
  if s.status.phase = p then body else raise .sequence cmd s

/-- The precondition flag: `Sequence(cmd)` when it is 0 (30_encoding R71). -/
def requireFlag (flag : Bool) (cmd : Word) (s : State) (body : Result) : Result :=
  if flag then body else raise .sequence cmd s

/-- Ends a command that returns no value: the response's `DATA` is 0 (92 D27). -/
def finish : Except Fault State → Result
  | .ok t => .next (t.respond 0)
  | .error f => .fault f

/-- A word that is no command: `IllegalCommand(cmd)`, or ignored in FAULT (30_encoding R64, R65, R66; 60 R132). -/
def execIllegal (cmd : Word) (s : State) : Result := unlessFault s (raise .illegalCommand cmd s)

end Sys2Proof.Machine
end

