-- ==== Sys2Proof/Machine/Operands.lean ====
section
/-! DEFINITION. What operands name: the register file that `GET` reads (spec/10_state.md R13, R14, R29) and the fields
of the Track Position (spec/10_state.md R22). -/

namespace Sys2Proof.Machine

/-- `x[r]`, with no side effect (10_state R14; constants R29). A result register whose flag is 0 holds 0 and reads so
(10_state R34). -/
def State.readReg (s : State) : Reg → Word
  | .status => s.status.word
  | .errinfo => s.errinfo
  | .pos => s.pos
  | .nsamp => s.nsamp
  | .nframes => s.nframes
  | .sumFrom => s.sumFrom
  | .sumTo => s.sumTo
  | .csumLo => s.csumLo
  | .csumHi => s.csumHi
  | .arV1 => s.arV1
  | .arV2 => s.arV2
  | .crc32 => s.crc32
  | .crc32ss => s.crc32ss
  | .cap => s.cfg.cap
  | .config => BitVec.setWidth 32 (BitVec.ofBool s.cfg.hasStrip)
  | .skip => BitVec.ofNat 32 Config.skip

/-- `POS.TRACK`, bits 7:0 (10_state R22). -/
def posTrack (pos : Word) : BitVec 8 := pos.extractLsb' 0 8

/-- `POS.TOTAL`, bits 15:8 (10_state R22). -/
def posTotal (pos : Word) : BitVec 8 := pos.extractLsb' 8 8

/-- `zext_32(total ++ track)`, the word `SETPOS` writes: `TOTAL` above the eight bits of `TRACK` (40_load_pack R75). -/
def posWord (track total : BitVec 8) : Word := BitVec.ofNat 32 (total.toNat * 2 ^ 8 + track.toNat)

/-- The bounds of a Track Position: 1 ≤ total ≤ 99 and 1 ≤ track ≤ total (40_load_pack R75, 60_exceptions R124). -/
def posInBounds (track total : BitVec 8) : Bool :=
  decide (1 ≤ total.toNat) && decide (total.toNat ≤ Config.maxTracks) && decide (1 ≤ track.toNat) &&
    decide (track.toNat ≤ total.toNat)

/-- `first = (POS.TRACK = 1)` (10_state R22). -/
def isFirst (pos : Word) : Bool := posTrack pos == 1

/-- `last = (POS.TRACK = POS.TOTAL)` (10_state R22). -/
def isLast (pos : Word) : Bool := posTrack pos == posTotal pos

end Sys2Proof.Machine
end

