-- ==== Sys2Proof/Machine/AccurateRip.lean ====
section
/-! DEFINITION. The AccurateRip engine and the command `AR` (spec/41_accuraterip.md R84 to R96). The engine's working
values live inside the command only (spec/10_state.md R31). -/

namespace Sys2Proof.Machine

/-- The closed interval of multipliers whose frames are summed, in the integers (41_accuraterip R86, R96). -/
structure Window where
  sumFrom : Int
  sumTo : Int
deriving DecidableEq, Repr

/-- `Window(POS, NFRAMES)` (41_accuraterip R86): the upper end may be negative (R96). -/
def windowOf (pos nframes : Word) : Window :=
  { sumFrom := if isFirst pos then (Config.skip : Int) else 0
    sumTo := if isLast pos then (nframes.toNat : Int) - (Config.skip : Int) else (nframes.toNat : Int) }

/-- A frame with multiplier `m` is summed when both ends, included, admit it (41_accuraterip R86, R91). -/
def Window.admits (w : Window) (m : Nat) : Bool := decide (w.sumFrom ≤ (m : Int)) && decide ((m : Int) ≤ w.sumTo)

/-- The two running sums (41_accuraterip R88). -/
structure Sums where
  lo : Word
  hi : Word
deriving DecidableEq, Repr

/-- One frame: the exact product split into its low and high 32 bits, each added modulo 2^32 to its own sum; no carry
passes between the sums (41_accuraterip R88, R90, R91). -/
def accumulate (w : Window) (m : Nat) (frame : Word) (acc : Sums) : Sums :=
  if w.admits m then
    { lo := acc.lo + BitVec.ofNat 32 (frame.toNat * m)
      hi := acc.hi + BitVec.ofNat 32 (frame.toNat * m / 2 ^ 32) }
  else acc

/-- The pass: frames in order, the multiplier starting at `m` and rising by 1 whether or not the frame is summed
(41_accuraterip R85, R87). -/
def arPass (w : Window) (m : Nat) (acc : Sums) : List Word → Sums
  | [] => acc
  | f :: fs => arPass w (m + 1) (accumulate w m f acc) fs

/-- The six registers and the flag the pass writes when it ends (41_accuraterip R85, R89). -/
def State.writeSums (s : State) (w : Window) (r : Sums) : State :=
  { s with
    sumFrom := BitVec.ofInt 32 w.sumFrom
    sumTo := BitVec.ofInt 32 w.sumTo
    csumLo := r.lo
    csumHi := r.hi
    arV1 := r.lo
    arV2 := r.lo + r.hi
    status := { s.status with arValid := true } }

/-- The AccurateRip engine over frames already read (41_accuraterip R85, from its third line on). -/
def State.arFrom (s : State) (frames : List Word) : State :=
  s.writeSums (windowOf s.pos s.nframes) (arPass (windowOf s.pos s.nframes) 1 ⟨0, 0⟩ frames)

/-- The AccurateRip engine: reads each frame once in rising order and writes nothing to the buffer (20_memory R46). -/
def arEngine (s : State) : Except Fault State :=
  (s.loadBytes 0 (4 * s.nframes.toNat)).map fun bs => s.arFrom (framesOf bs)

/-- `AR` (41_accuraterip R85). -/
def execAr (s : State) : Result :=
  unlessFault s <|
  requirePhase .ready (encode .ar) s <|
  requireFlag s.status.posValid (encode .ar) s <|
  finish (arEngine s)

end Sys2Proof.Machine
end

