-- ==== Sys2Proof/Machine/Crc.lean ====
section
/-! DEFINITION. The CRC32 engine and the commands `CRC` and `STRIP` (spec/42_crc32.md R97 to R106). -/

namespace Sys2Proof.Machine

/-- One bit of the division, low bit first, with the reversed polynomial (42_crc32 R98). -/
def crcBit (c : Word) : Word := if c.getLsbD 0 then (c >>> 1) ^^^ 0xEDB88320 else c >>> 1

/-- `n` bits of the division. -/
def crcBits : Nat → Word → Word
  | 0, c => c
  | n + 1, c => crcBits n (crcBit c)

/-- One byte: it enters at the low end, then eight bits (42_crc32 R98). -/
def crcByte (c : Word) (b : Byte) : Word := crcBits 8 (c ^^^ BitVec.setWidth 32 b)

/-- `U(c, bs)`, the running remainder after the bytes `bs` (42_crc32 R101). -/
def crcRun (c : Word) : List Byte → Word
  | [] => c
  | b :: bs => crcRun (crcByte c b) bs

/-- `crc32(bs)`: preset 0xFFFFFFFF, final exclusive-or 0xFFFFFFFF (42_crc32 R98). -/
def crc32Of (bs : List Byte) : Word := crcRun 0xFFFFFFFF bs ^^^ 0xFFFFFFFF

/-- `Strip(xs)`: the samples that are not 0x0000, in their order (42_crc32 R103). -/
def strip : List Sample → List Sample
  | [] => []
  | x :: xs => if x = 0 then strip xs else x :: strip xs

/-- What the CRC pass writes when it ends (42_crc32 R100). -/
def State.writeCrc (s : State) (value : Word) : State :=
  { s with crc32 := value, status := { s.status with crcValid := true } }

/-- The CRC pass: each byte of the buffer once in rising order, nothing written to the buffer (42_crc32 R100,
20_memory R47). -/
def crcEngine (s : State) : Except Fault State :=
  (s.loadBytes 0 (2 * s.nsamp.toNat)).map fun bs => s.writeCrc (crc32Of bs)

/-- What the STRIP pass writes: the buffer compacted to the samples `kept`, their count, the CRC32 of their bytes, the
flag and the phase; the cells behind them hold no value (42_crc32 R102). -/
def State.writeStripped (s : State) (kept : List Sample) : State :=
  { s with
    buf := Memory.ofBytes 0 (bytesOf kept)
    nsamp := BitVec.ofNat 32 kept.length
    crc32ss := crc32Of (bytesOf kept)
    status := { s.status with ssValid := true, phase := .stripped } }

/-- The STRIP pass over the samples of the buffer, compacting it in place (42_crc32 R102, R103, R104). -/
def stripEngine (s : State) : Except Fault State :=
  (s.loadBytes 0 (2 * s.nsamp.toNat)).map fun bs => s.writeStripped (strip (samplesOf bs))

/-- The loop of 42_crc32 R102 as it is written there, over the buffer itself: `n` samples still to look at, `i` the read
index and `k` the write index (10_state R31). It is what the compaction above is held against; none where a sample it
reads holds no value. -/
def compactLoop (buf : Memory) (i k : Nat) : Nat → Option (Memory × Nat)
  | 0 => some (buf, k)
  | n + 1 =>
    match buf.readBytes (2 * i) 2 with
    | none => none
    | some bs =>
      if BitVec.ofNat 16 (littleEndian bs) = 0 then compactLoop buf (i + 1) k n
      else
        compactLoop (buf.writeBytes (2 * k) (sampleBytes (BitVec.ofNat 16 (littleEndian bs)))) (i + 1) (k + 1) n

/-- The buffer after the loop: the cells behind the `k` survivors hold no value (42_crc32 R102, 92 D20). -/
def truncateTo (k : Nat) (buf : Memory) : Memory := buf.filter fun c => decide (c.1 < 2 * k)

/-- `CRC` (42_crc32 R100). -/
def execCrc (s : State) : Result :=
  unlessFault s <|
  requirePhase .ready (encode .crc) s <|
  finish (crcEngine s)

/-- `STRIP` (42_crc32 R102): where the build lacks it, it is an illegal command in every phase but FAULT
(30_encoding R66). -/
def execStrip (s : State) : Result :=
  unlessFault s <|
  if s.cfg.hasStrip then
    requirePhase .ready (encode .strip) s <|
    requireFlag s.status.crcValid (encode .strip) s <|
    finish (stripEngine s)
  else raise .illegalCommand (encode .strip) s

end Sys2Proof.Machine
end

