-- ==== Sys2Proof/Machine/Load.lean ====
section
/-! DEFINITION. The loading commands and the packer's window on the buffer: `PUSH`, `SETPOS`, `SEAL`, `PEEKF`
(spec/40_load_pack.md R74 to R77). -/

namespace Sys2Proof.Machine

/-- `SETPOS track, total` (40_load_pack R75). -/
def execSetpos (track total : BitVec 8) (s : State) : Result :=
  unlessFault s <|
  requirePhase .load (encode (.setpos track total)) s <|
  if posInBounds track total then
    .next (State.respond
      { s with pos := posWord track total, status := { s.status with posValid := true } } 0)
  else raise .invalidArgument (encode (.setpos track total)) s

/-- `PUSH sample`: appends at the first unused sample index, the old `NSAMP` (40_load_pack R74, 20_memory R45). -/
def execPush (sample : Sample) (s : State) : Result :=
  unlessFault s <|
  requirePhase .load (encode (.push sample)) s <|
  if s.nsamp = s.cfg.cap then raise .allocationFailure s.nsamp s
  else finish ((s.storeSample s.nsamp.toNat sample).map fun t => { t with nsamp := s.nsamp + 1 })

/-- `SEAL` (40_load_pack R76): the halving is exact, since an odd `NSAMP` raises. -/
def execSeal (s : State) : Result :=
  unlessFault s <|
  requirePhase .load (encode .sealBuffer) s <|
  if s.nsamp.getLsbD 0 then raise .oddSampleCount s.nsamp s
  else .next (State.respond { s with nframes := s.nsamp / 2, status := { s.status with phase := .ready } } 0)

/-- `PEEKF index` (40_load_pack R77): the packed frame in the response, no state written. -/
def execPeekf (index : BitVec 28) (s : State) : Result :=
  unlessFault s <|
  requirePhase .ready (encode (.peekf index)) s <|
  if s.nframes.toNat ≤ index.toNat then raise .badIndex (encode (.peekf index)) s
  else
    match s.frame index.toNat with
    | .ok w => .next (s.respond w)
    | .error f => .fault f

end Sys2Proof.Machine
end

