-- ==== Sys2Proof/Machine/Sequencing.lean ====
section
/-! DEFINITION. The sequencing and system commands `NOP`, `ARCRC`, `CLEAR`, `GET` (spec/43_sequencing.md R111 to R114),
and the two engines of `ARCRC` as interleaved agents (spec/20_memory.md R52, spec/43_sequencing.md R112). -/

namespace Sys2Proof.Machine

/-- `NOP` (43_sequencing R111): nothing, in every phase. -/
def execNop (s : State) : Result := .next (s.respond 0)

/-- `CLEAR` (43_sequencing R113): legal in every phase, performed in FAULT. -/
def execClear (s : State) : Result := .next (s.cleared.respond 0)

/-- `GET reg` (43_sequencing R114): legal in every phase, performed in FAULT. -/
def execGet (reg : Reg) (s : State) : Result := .next (s.respond (s.readReg reg))

/-- Both engines. They read shared data neither writes and write registers the other does not read, so every
interleaving ends as one after the other does (20_memory R52, 43_sequencing R112). -/
def bothEngines (s : State) : Except Fault State :=
  match arEngine s with
  | .ok t => crcEngine t
  | .error f => .error f

/-- `ARCRC` (43_sequencing R112): the checks come before either engine starts. -/
def execArcrc (s : State) : Result :=
  unlessFault s <|
  requirePhase .ready (encode .arcrc) s <|
  requireFlag s.status.posValid (encode .arcrc) s <|
  finish (bothEngines s)

/-! ### The engines as agents

The working values of 10_state R31 while `ARCRC` runs, one buffer access a turn, so that "any interleaving" is a
statement about the model. -/

/-- Whose turn it is. -/
inductive Turn where
  | accurateRip | crc32
deriving DecidableEq, Repr

/-- The working values of the two engines inside `ARCRC`: the multiplier, the frames still to read and the two sums of
one; the bytes still to read and the remainder of the other (10_state R31). -/
structure Engines where
  m : Nat
  frames : List Word
  sums : Sums
  bytes : List Byte
  c : Word
deriving DecidableEq, Repr

/-- Both engines at their start (10_state R31). -/
def Engines.start (frames : List Word) (bytes : List Byte) : Engines :=
  { m := 1, frames := frames, sums := ⟨0, 0⟩, bytes := bytes, c := 0xFFFFFFFF }

/-- One access of one engine; an engine that has ended does nothing. -/
def Engines.turn (w : Window) (e : Engines) : Turn → Engines
  | .accurateRip =>
    match e.frames with
    | [] => e
    | f :: fs => { e with m := e.m + 1, frames := fs, sums := accumulate w e.m f e.sums }
  | .crc32 =>
    match e.bytes with
    | [] => e
    | b :: bs => { e with bytes := bs, c := crcByte e.c b }

/-- The engines under a schedule of turns. -/
def Engines.run (w : Window) (e : Engines) : List Turn → Engines
  | [] => e
  | t :: ts => Engines.run w (e.turn w t) ts

/-- Both engines have ended: the join (20_memory R53). -/
def Engines.joined (e : Engines) : Bool := e.frames.isEmpty && e.bytes.isEmpty

/-- What the two engines write at the join. -/
def State.writeJoin (s : State) (e : Engines) : State :=
  (s.writeSums (windowOf s.pos s.nframes) e.sums).writeCrc (e.c ^^^ 0xFFFFFFFF)

end Sys2Proof.Machine
end

