-- ==== Sys2Proof/Machine/Dispatch.lean ====
section
/-! DEFINITION. `exec`: one arm per command, each one direct call of its meaning. -/

namespace Sys2Proof.Machine

def exec (i : Instr) (s : State) : Host.Outcome State Fault Refusal :=
  match i with
  | .nop => Sys2Proof.Machine.execNop s
  | .clear => Sys2Proof.Machine.execClear s
  | .setpos track total => Sys2Proof.Machine.execSetpos track total s
  | .push sample => Sys2Proof.Machine.execPush sample s
  | .sealBuffer => Sys2Proof.Machine.execSeal s
  | .ar => Sys2Proof.Machine.execAr s
  | .crc => Sys2Proof.Machine.execCrc s
  | .arcrc => Sys2Proof.Machine.execArcrc s
  | .strip => Sys2Proof.Machine.execStrip s
  | .get reg => Sys2Proof.Machine.execGet reg s
  | .peekf index => Sys2Proof.Machine.execPeekf index s

end Sys2Proof.Machine
end

