-- ==== Sys2Proof/Machine/Step.lean ====
section
/-! DEFINITION. One step: one transaction of the command port (spec/00_scope.md R8, spec/10_state.md R16). -/

namespace Sys2Proof.Machine

/-- The host presents its next command word, the index moves past it, and the block runs the command the word decodes
to, or answers to a word that is no command; with nothing presented the block holds its state. -/
def step (s : State) : Host.Outcome State Fault Refusal :=
  match s.presented with
  | none => idle s
  | some cmd =>
    match decode s.cfg.hasStrip cmd with
    | .ok i => exec i s.advance
    | .error _ => execIllegal cmd s.advance

/-- `s` with the command word `w` presented next, by the host of 10_state R16 (log entry 2). -/
def State.withFetchWord (s : State) (nbits w : Nat) : State :=
  { s with program := placeCommand (commandWord nbits w) s.program s.pc }

end Sys2Proof.Machine
end

