-- ==== Sys2Proof/Machine/HostTools.lean ====
section
/-! DEFINITION. The host's side as the spec writes it: the pseudo-commands and the assembler notation
(spec/30_encoding.md R69, R70), the canonical command sequence (spec/43_sequencing.md R118) and the Checksum Result as
the registers hold it (R119). Nothing here is state or changes a step. -/

namespace Sys2Proof.Machine

/-- The pseudo-commands of 30_encoding R70, each a fixed expansion into commands. -/
inductive Pseudo where
  /-- one frame, left then right -/
  | pushf (left right : Sample)
  /-- one frame as its 32-bit word -/
  | pushw (frame : Word)
  /-- a signed PCM value -/
  | pushs (value : Int)
  | all
  | results
deriving DecidableEq, Repr

/-- The expansion of a pseudo-command (30_encoding R70; `PUSHS` 40_load_pack R79). -/
def Pseudo.expand : Pseudo → List Instr
  | .pushf left right => [.push left, .push right]
  | .pushw frame => [.push (frame.extractLsb' 0 16), .push (frame.extractLsb' 16 16)]
  | .pushs value => [.push (BitVec.ofInt 16 value)]
  | .all => [.arcrc, .strip]
  | .results => [.get .arV1, .get .arV2, .get .crc32, .get .crc32ss]

/-- The command sequence of one computation (43_sequencing R118), with `STRIP` and the read of its result when the
silence-stripped variant is requested (R120). -/
def canonicalSequence (track total : BitVec 8) (samples : List Sample) (silenceStripped : Bool) : List Instr :=
  [.clear, .setpos track total] ++ samples.map Instr.push ++ [.sealBuffer, .arcrc] ++
    (if silenceStripped then [.strip] else []) ++ [.get .arV1, .get .arV2, .get .crc32] ++
    (if silenceStripped then [.get .crc32ss] else [])

/-- The Checksum Result tuple (00_scope R12, 43_sequencing R119). -/
structure ChecksumResult where
  arV1 : Word
  arV2 : Word
  crc32 : Word
  crc32SkipSilence : Option Word
deriving DecidableEq, Repr

/-- The Checksum Result in the registers: the optional member is present exactly when `SS_VALID` = 1 (43_sequencing
R119). -/
def State.checksumResult (s : State) : ChecksumResult :=
  { arV1 := s.arV1
    arV2 := s.arV2
    crc32 := s.crc32
    crc32SkipSilence := if s.status.ssValid then some s.crc32ss else none }

/-! ### The assembler notation (30_encoding R69) -/

/-- The text before a comment, which `;` starts. -/
def beforeComment : List Char → List Char
  | [] => []
  | c :: cs => if c = ';' then [] else c :: beforeComment cs

def isBlank (c : Char) : Bool := c == ' ' || c == '\t'

/-- A text without the blanks at its two ends. -/
def trimmed (cs : List Char) : List Char :=
  ((cs.dropWhile isBlank).reverse.dropWhile isBlank).reverse

/-- The operands of a text, separated by commas. -/
def operandTexts : List Char → List (List Char)
  | [] => [[]]
  | c :: cs =>
    if c = ',' then [] :: operandTexts cs
    else
      match operandTexts cs with
      | [] => [[c]]
      | t :: ts => (c :: t) :: ts

/-- The value of a decimal digit, or of a hexadecimal digit in either case. -/
def digitValue (base : Nat) (c : Char) : Option Nat :=
  let n := c.toNat
  let v :=
    if 48 ≤ n ∧ n ≤ 57 then n - 48
    else if 97 ≤ n ∧ n ≤ 102 then n - 87
    else if 65 ≤ n ∧ n ≤ 70 then n - 55
    else base
  if v < base then some v else none

/-- The number a text of digits writes, read after `acc`. -/
def digitsValue (base : Nat) (acc : Nat) : List Char → Option Nat
  | [] => some acc
  | c :: cs =>
    match digitValue base c with
    | some v => digitsValue base (base * acc + v) cs
    | none => none

/-- A number: decimal, or hexadecimal after `0x` (30_encoding R69). -/
def numberOf : List Char → Option Nat
  | [] => none
  | '0' :: 'x' :: [] => none
  | '0' :: 'x' :: ds => digitsValue 16 0 ds
  | ds => digitsValue 10 0 ds

/-- A number with an optional minus sign (either character), the operand of `PUSHS` (30_encoding R70). -/
def signedOf : List Char → Option Int
  | '-' :: ds => (numberOf ds).map fun n => -(n : Int)
  | '−' :: ds => (numberOf ds).map fun n => -(n : Int)
  | ds => (numberOf ds).map fun n => (n : Int)

/-- A number below a bound. -/
def numberBelow (bound : Nat) (cs : List Char) : Option Nat :=
  match numberOf cs with
  | some n => if n < bound then some n else none
  | none => none

/-- The register names of 10_state R14, in the order of their numbers. -/
def registerNames : List String :=
  ["STATUS", "ERRINFO", "POS", "NSAMP", "NFRAMES", "SUM_FROM", "SUM_TO", "CSUM_LO", "CSUM_HI", "AR_V1", "AR_V2",
   "CRC32", "CRC32_SS", "CAP", "CONFIG", "SKIP"]

/-- The number of a register named in a list of names. -/
def nameIndex (cs : List Char) : List String → Nat → Option Nat
  | [], _ => none
  | n :: ns, k => if n.toList = cs then some k else nameIndex cs ns (k + 1)

/-- The register operand of `GET`: its name or its number (30_encoding R69). -/
def registerOf (cs : List Char) : Option Reg :=
  match nameIndex cs registerNames 0 with
  | some k => some (Reg.ofNum (BitVec.ofNat 4 k))
  | none => (numberBelow 16 cs).map fun k => Reg.ofNum (BitVec.ofNat 4 k)

/-- The commands a mnemonic stands for where it takes no operand. -/
def noOperandCommands : List (String × List Instr) :=
  [("NOP", [.nop]), ("CLEAR", [.clear]), ("SEAL", [.sealBuffer]), ("AR", [.ar]), ("CRC", [.crc]), ("ARCRC", [.arcrc]),
   ("STRIP", [.strip]), ("ALL", Pseudo.all.expand), ("RESULTS", Pseudo.results.expand)]

/-- The commands a mnemonic of one operand stands for (30_encoding R69, R70). -/
def oneOperandCommand (mn op : List Char) : Option (List Instr) :=
  if mn = "PUSH".toList then (numberBelow (2 ^ 16) op).map fun n => [.push (BitVec.ofNat 16 n)]
  else if mn = "GET".toList then (registerOf op).map fun r => [.get r]
  else if mn = "PEEKF".toList then (numberBelow (2 ^ 28) op).map fun n => [.peekf (BitVec.ofNat 28 n)]
  else if mn = "PUSHW".toList then (numberBelow (2 ^ 32) op).map fun n => (Pseudo.pushw (BitVec.ofNat 32 n)).expand
  else if mn = "PUSHS".toList then
    match signedOf op with
    | some v => if -32768 ≤ v ∧ v ≤ 32767 then some (Pseudo.pushs v).expand else none
    | none => none
  else none

/-- The commands a mnemonic of two operands stands for (30_encoding R69, R70). -/
def twoOperandCommand (mn a b : List Char) : Option (List Instr) :=
  if mn = "SETPOS".toList then
    match numberBelow (2 ^ 8) a, numberBelow (2 ^ 8) b with
    | some t, some n => some [.setpos (BitVec.ofNat 8 t) (BitVec.ofNat 8 n)]
    | _, _ => none
  else if mn = "PUSHF".toList then
    match numberBelow (2 ^ 16) a, numberBelow (2 ^ 16) b with
    | some l, some r => some (Pseudo.pushf (BitVec.ofNat 16 l) (BitVec.ofNat 16 r)).expand
    | _, _ => none
  else none

/-- The commands of one line of assembler text; none where the line is not in the notation. -/
def assembleChars (line : List Char) : Option (List Instr) :=
  let text := trimmed (beforeComment line)
  let mn := text.takeWhile fun c => !isBlank c
  let rest := trimmed (text.dropWhile fun c => !isBlank c)
  if text = [] then some []
  else if rest = [] then (noOperandCommands.find? fun p => p.1.toList = mn).map Prod.snd
  else
    match (operandTexts rest).map trimmed with
    | [op] => oneOperandCommand mn op
    | [a, b] => twoOperandCommand mn a b
    | _ => none

/-- The command words of one line of assembler text (30_encoding R69, R70). -/
def assemble (line : String) : Option (List Word) := (assembleChars line.toList).map fun is => is.map encode

end Sys2Proof.Machine
end

