-- ==== Sys2Proof/Safety.lean ====
section
/-! DEFINITION. The terms statements are made in: the invariant of the state between two transactions
(spec/10_state.md R35, with the value ranges of R20 to R30), what the validity flags promise (R17), which command is
legal when (spec/30_encoding.md R71), which error a transaction raises (spec/60_exceptions.md R127, R131), and which
command may write which register (spec/10_state.md R14). -/

namespace Sys2Proof.Machine

/-! ### The buffer -/

/-- Exactly the bytes of the samples below `NSAMP` hold values, at rising addresses from 0 (10_state R30, 20_memory
R41). -/
abbrev State.BufferOk (s : State) : Prop := s.buf.map Prod.fst = List.range (2 * s.nsamp.toNat)

/-- The bytes of the buffer in address order: `Bytes(NSAMP)` where `BufferOk` holds (42_crc32 R97). -/
def State.bytes (s : State) : List Byte := s.buf.map Prod.snd

/-- The samples of the buffer in order. -/
def State.samples (s : State) : List Sample := samplesOf s.bytes

/-- The frames of the buffer in order (40_load_pack R73). -/
def State.frames (s : State) : List Word := framesOf s.bytes

/-! ### The invariant, clause by clause -/

/-- `NSAMP` ≤ `CAP` (10_state R35 (b)) and twice `NFRAMES` likewise (R24), in a build of the spec's range. -/
abbrev State.CapacityOk (s : State) : Prop :=
  s.cfg.InRange ∧ s.nsamp.toNat ≤ s.cfg.cap.toNat ∧ 2 * s.nframes.toNat ≤ s.cfg.cap.toNat

/-- `ERR` ≠ 0 exactly in FAULT (10_state R35 (a)); `ERRINFO` 0 without an error (R21); no kind of 60 R123 is recorded. -/
abbrev State.ErrorOk (s : State) : Prop :=
  (s.status.err ≠ none ↔ s.status.phase = .fault) ∧ (s.status.err = none → s.errinfo = 0) ∧
  s.status.err ≠ some .unsupportedFormat ∧ s.status.err ≠ some .ioError ∧ s.status.err ≠ some .concurrencyFailure

/-- 1 ≤ `TRACK` ≤ `TOTAL` ≤ 99 where `POS_VALID` = 1 (10_state R35 (h)), `POS` = 0 where it is 0, bits 31:16 zero
(R22). -/
abbrev State.PosOk (s : State) : Prop :=
  (s.status.posValid = true → 1 ≤ (posTrack s.pos).toNat ∧ (posTrack s.pos).toNat ≤ (posTotal s.pos).toNat ∧
    (posTotal s.pos).toNat ≤ 99) ∧
  (s.status.posValid = false → s.pos = 0) ∧ s.pos.extractLsb' 16 16 = 0

/-- What each phase says of the counts and flags (10_state R35 (c), (d), (e); `HAS_STRIP` 30_encoding R66). -/
abbrev State.PhaseOk (s : State) : Prop :=
  (s.status.phase = .load → s.nframes = 0 ∧ s.status.arValid = false ∧ s.status.crcValid = false ∧
    s.status.ssValid = false) ∧
  (s.status.phase = .ready → s.nsamp.toNat = 2 * s.nframes.toNat ∧ s.status.ssValid = false) ∧
  (s.status.phase = .stripped → s.status.ssValid = true ∧ s.status.crcValid = true ∧
    s.nsamp.toNat ≤ 2 * s.nframes.toNat ∧ s.cfg.hasStrip = true)

/-- In FAULT every register but `STATUS`, `ERRINFO` and the constants is 0, and so are the flags (10_state R35 (f)). -/
abbrev State.FaultOk (s : State) : Prop :=
  s.status.phase = .fault →
    s.pos = 0 ∧ s.nsamp = 0 ∧ s.nframes = 0 ∧ s.sumFrom = 0 ∧ s.sumTo = 0 ∧ s.csumLo = 0 ∧ s.csumHi = 0 ∧
    s.arV1 = 0 ∧ s.arV2 = 0 ∧ s.crc32 = 0 ∧ s.crc32ss = 0 ∧ s.status.posValid = false ∧ s.status.arValid = false ∧
    s.status.crcValid = false ∧ s.status.ssValid = false

/-- The result registers and their flags (10_state R35 (g), R25 to R28). -/
abbrev State.ResultOk (s : State) : Prop :=
  (s.status.arValid = true → s.status.posValid = true ∧ s.arV1 = s.csumLo ∧ s.arV2 = s.csumLo + s.csumHi) ∧
  (s.status.arValid = false → s.sumFrom = 0 ∧ s.sumTo = 0 ∧ s.csumLo = 0 ∧ s.csumHi = 0 ∧ s.arV1 = 0 ∧ s.arV2 = 0) ∧
  (s.sumFrom = 0 ∨ s.sumFrom = 2940) ∧
  (s.status.crcValid = false → s.crc32 = 0) ∧ (s.status.ssValid = false → s.crc32ss = 0)

/-- The last response carries `STATUS.ERR` (00_scope R8), and the host's index stays within its list (10_state R16). -/
abbrev State.PortOk (s : State) : Prop :=
  (∀ r ∈ s.rsp, r.err = s.status.errCode) ∧ s.pc ≤ s.program.length

/-- The invariant that holds between any two transactions (10_state R35 and the ranges above). -/
abbrev State.Inv (s : State) : Prop :=
  s.BufferOk ∧ s.CapacityOk ∧ s.ErrorOk ∧ s.PosOk ∧ s.PhaseOk ∧ s.FaultOk ∧ s.ResultOk ∧ s.PortOk

/-- What the validity flags promise (10_state R17): in READY, a set `CRC_VALID` or `AR_VALID` means the registers hold
the outcome of the pass over the buffer as it is; in STRIPPED, `CRC32_SS` is the CRC32 of the bytes that are left. -/
abbrev State.Truthful (s : State) : Prop :=
  (s.status.phase = .ready → s.status.crcValid = true → s.crc32 = crc32Of s.bytes) ∧
  (s.status.phase = .ready → s.status.arValid = true →
    s.sumFrom = BitVec.ofInt 32 (windowOf s.pos s.nframes).sumFrom ∧
    s.sumTo = BitVec.ofInt 32 (windowOf s.pos s.nframes).sumTo ∧
    s.csumLo = (arPass (windowOf s.pos s.nframes) 1 ⟨0, 0⟩ s.frames).lo ∧
    s.csumHi = (arPass (windowOf s.pos s.nframes) 1 ⟨0, 0⟩ s.frames).hi) ∧
  (s.status.phase = .stripped → s.crc32ss = crc32Of s.bytes)

/-! ### Legality and errors as the spec's tables give them -/

/-- The table of 30_encoding R71 outside FAULT: the phase and the flag in brackets. -/
def legal (s : State) : Instr → Bool
  | .nop => true
  | .clear => true
  | .get _ => true
  | .setpos _ _ => s.status.phase == .load
  | .push _ => s.status.phase == .load
  | .sealBuffer => s.status.phase == .load
  | .peekf _ => s.status.phase == .ready
  | .ar => s.status.phase == .ready && s.status.posValid
  | .crc => s.status.phase == .ready
  | .arcrc => s.status.phase == .ready && s.status.posValid
  | .strip => s.status.phase == .ready && s.status.crcValid

/-- The argument or resource check of a command, with its `ERRINFO` (60_exceptions R127 level 4, R131). -/
def argumentError (s : State) : Instr → Option (ErrorKind × Word)
  | .nop => none
  | .clear => none
  | .get _ => none
  | .setpos track total =>
    if 1 ≤ total.toNat ∧ total.toNat ≤ 99 ∧ 1 ≤ track.toNat ∧ track.toNat ≤ total.toNat then none
    else some (.invalidArgument, encode (.setpos track total))
  | .push _ => if s.nsamp = s.cfg.cap then some (.allocationFailure, s.nsamp) else none
  | .sealBuffer => if s.nsamp.toNat % 2 = 1 then some (.oddSampleCount, s.nsamp) else none
  | .peekf index => if index.toNat < s.nframes.toNat then none else some (.badIndex, encode (.peekf index))
  | .ar => none
  | .crc => none
  | .arcrc => none
  | .strip => none

/-- The one error a transaction outside FAULT raises, the first failing check winning (60_exceptions R127). -/
def transactionError (s : State) (cmd : Word) : Option (ErrorKind × Word) :=
  match decode s.cfg.hasStrip cmd with
  | .error _ => some (.illegalCommand, cmd)
  | .ok i => if legal s i then argumentError s i else some (.sequence, cmd)

/-- The column "written by" of 10_state R14, and for `STATUS` the commands that change the phase or a flag. -/
def writesReg : Instr → Reg → Bool
  | .nop, _ => false
  | .clear, r => !(r == .cap || r == .config || r == .skip)
  | .get _, _ => false
  | .peekf _, _ => false
  | .setpos _ _, r => r == .pos || r == .status
  | .push _, r => r == .nsamp
  | .sealBuffer, r => r == .nframes || r == .status
  | .ar, r => r == .sumFrom || r == .sumTo || r == .csumLo || r == .csumHi || r == .arV1 || r == .arV2 || r == .status
  | .crc, r => r == .crc32 || r == .status
  | .arcrc, r =>
    r == .sumFrom || r == .sumTo || r == .csumLo || r == .csumHi || r == .arV1 || r == .arV2 || r == .crc32 ||
      r == .status
  | .strip, r => r == .nsamp || r == .crc32ss || r == .status

end Sys2Proof.Machine
end

