-- ==== Sys2Proof/Certificates/Slice0/Obligations.lean ====
section
/-! DEFINITION. The statements made about ARV-CORE, each from the numbered rules of spec/ its docstring names.
`raise e info s` is fault entry as `FaultEntryClearsAndRecords` states it, field by field. -/

open Sys2Proof Sys2Proof.Machine

/-! ### Encoding -/

/-- Words written out from the spec's encodings decode to what they stand for (30_encoding R63, R64, R65, R66, R69). -/
def Obligations.SpecWordsDecode : Prop :=
  decode true 0x00000000 = .ok .nop ∧ decode true 0x10000000 = .ok .clear ∧
  decode true 0x20000302 = .ok (.setpos 2 3) ∧ decode true 0x30001234 = .ok (.push 0x1234) ∧
  decode true 0x40000000 = .ok .sealBuffer ∧ decode true 0x50000000 = .ok .ar ∧ decode true 0x60000000 = .ok .crc ∧
  decode true 0x70000000 = .ok .arcrc ∧ decode true 0x80000000 = .ok .strip ∧
  decode true 0x90000009 = .ok (.get .arV1) ∧ decode true 0xA0000005 = .ok (.peekf 5) ∧
  decode true 0x50000001 = .error .reservedBits ∧ decode true 0x30011234 = .error .reservedBits ∧
  decode true 0x90000019 = .error .reservedBits ∧ decode true 0x20010101 = .error .reservedBits ∧
  decode true 0xB0000000 = .error .reservedOpcode ∧ decode true 0xFFFFFFFF = .error .reservedOpcode ∧
  decode false 0x80000000 = .error .stripNotBuilt

/-- Decoding an encoded command of the build gives it back, at every value of every operand (30_encoding R61, R68). -/
def Obligations.DecodeOfEncode : Prop :=
  ∀ (hasStrip : Bool) (i : Instr), i.wellFormed hasStrip = true → decode hasStrip (encode i) = .ok i

/-- A word that decodes to a command is that command's one word, and the build has the command (30_encoding R67, R68). -/
def Obligations.EncodeOfDecode : Prop :=
  ∀ (hasStrip : Bool) (w : Word) (i : Instr),
    decode hasStrip w = .ok i → encode i = w ∧ i.wellFormed hasStrip = true

/-- A word is the command of a row exactly when its masked bits are the row's, and a word that matches no row is illegal
(30_encoding R63). -/
def Obligations.DecodeFollowsMaskAndMatch : Prop :=
  ∀ w : Word,
    (∀ row ∈ opcodeRows, w &&& row.mask = row.pattern ↔ ∃ i, decode true w = .ok i ∧ i.row = row) ∧
    ((∀ row ∈ opcodeRows, w &&& row.mask ≠ row.pattern) → ∃ e, decode true w = .error e)

/-! ### Transactions -/

/-- A step with a command presented runs the decoded command after moving the host's index past its word (10_state R16,
00_scope R8). -/
def Obligations.StepRunsDecodedCommand : Prop :=
  ∀ (s : State) (w : Word) (i : Instr), s.program[s.pc]? = some w → decode s.cfg.hasStrip w = .ok i →
    step s = exec i { s with pc := s.pc + 1 }

/-- With no command presented the block does nothing (70_reset_and_hazards R143, 60_exceptions R140). -/
def Obligations.StepWithoutCommandHoldsState : Prop :=
  ∀ s : State, s.program[s.pc]? = none → step s = .next s

/-- The word placed for the next transaction is the one the next step presents (the model's harness, log entry 2). -/
def Obligations.PlacedWordIsPresented : Prop :=
  ∀ (s : State) (nbits w : Nat),
    (s.withFetchWord nbits w).program[(s.withFetchWord nbits w).pc]? = some (BitVec.ofNat 32 (w % 2 ^ nbits))

/-- A reserved opcode, whatever its `ARG`, raises `IllegalCommand` with the word in `ERRINFO`, or is ignored in FAULT;
the all-ones word is illegal and the all-zeros word is `NOP` (30_encoding R64). -/
def Obligations.ReservedOpcodeIsIllegal : Prop :=
  (∀ (s : State) (w : Word), s.program[s.pc]? = some w → 0xB ≤ (w.extractLsb' 28 4).toNat →
    (s.status.phase ≠ .fault → step s = raise .illegalCommand w { s with pc := s.pc + 1 }) ∧
    (s.status.phase = .fault → step s = .next { s with pc := s.pc + 1, rsp := some ⟨s.status.errCode, 0⟩ })) ∧
  decode true 0xFFFFFFFF = .error .reservedOpcode ∧ decode true 0x00000000 = .ok .nop

/-- An assigned opcode with a reserved bit of `ARG` set raises `IllegalCommand` with the word in `ERRINFO`, or is
ignored in FAULT (30_encoding R65, reserved bits R61). -/
def Obligations.ReservedBitsAreIllegal : Prop :=
  ∀ (s : State) (w : Word), s.program[s.pc]? = some w →
    ((w.extractLsb' 28 4).toNat ∈ [0, 1, 4, 5, 6, 7, 8] ∧ w.extractLsb' 0 28 ≠ 0 ∨
      (w.extractLsb' 28 4).toNat ∈ [2, 3] ∧ w.extractLsb' 16 12 ≠ 0 ∨
      (w.extractLsb' 28 4).toNat = 9 ∧ w.extractLsb' 4 24 ≠ 0) →
    (s.status.phase ≠ .fault → step s = raise .illegalCommand w { s with pc := s.pc + 1 }) ∧
    (s.status.phase = .fault → step s = .next { s with pc := s.pc + 1, rsp := some ⟨s.status.errCode, 0⟩ })

/-- Without the silence-stripping option the word of `STRIP` raises `IllegalCommand` in every phase but FAULT, and from
reset on `CRC32_SS` and `SS_VALID` stay 0 and STRIPPED is never reached (30_encoding R66). -/
def Obligations.StripNotBuilt : Prop :=
  ∀ s : State, s.cfg.hasStrip = false →
    (s.program[s.pc]? = some 0x80000000 → s.status.phase ≠ .fault →
      step s = raise .illegalCommand 0x80000000 { s with pc := s.pc + 1 }) ∧
    (s.status.phase ≠ .fault → exec .strip s = raise .illegalCommand 0x80000000 s) ∧
    (s.crc32ss = 0 ∧ s.status.ssValid = false ∧ s.status.phase ≠ .stripped →
      ∀ t, step s = .next t → t.crc32ss = 0 ∧ t.status.ssValid = false ∧ t.status.phase ≠ .stripped) ∧
    (State.resetWith s.cfg).crc32ss = 0 ∧ (State.resetWith s.cfg).status.ssValid = false ∧
    (State.resetWith s.cfg).status.phase ≠ .stripped

/-- Each transaction moves the host's index by exactly 1 and leaves the command list; the index starts at 0 (10_state
R16). -/
def Obligations.IndexAdvancesByOne : Prop :=
  State.reset.pc = 0 ∧
  ∀ (s t : State) (w : Word), s.program[s.pc]? = some w → step s = .next t →
    t.pc = s.pc + 1 ∧ t.program = s.program

/-- No command reads the host's command list or index: with another list and another index a command does the same to
everything else (10_state R16, 20_memory R54). -/
def Obligations.CommandsDoNotSeeTheHarness : Prop :=
  ∀ (i : Instr) (s : State) (q : List Word) (p : Nat),
    exec i { s with program := q, pc := p } =
      match exec i s with
      | .next t => .next { t with program := q, pc := p }
      | .fault f => .fault f
      | .refused r => .refused r

/-- The response of a transaction carries `STATUS.ERR` as it is after the command, and `DATA` 0 unless the command is a
`GET` or a `PEEKF` (00_scope R8, 43_sequencing R116). -/
def Obligations.ResponseCarriesStatusError : Prop :=
  ∀ (s t : State) (w : Word), s.program[s.pc]? = some w → step s = .next t →
    ∃ d, t.rsp = some ⟨t.status.errCode, d⟩ ∧
      (d ≠ 0 → ∃ i, decode s.cfg.hasStrip w = .ok i ∧ ((∃ r, i = .get r) ∨ ∃ j, i = .peekf j))

/-! ### Reset, fault entry and FAULT -/

/-- Reset leaves every register, the flags and the buffer as 10_state R33 lists them, in every build. -/
def Obligations.ResetState : Prop :=
  ∀ cfg : Config, let s := State.resetWith cfg
    s.status.word = 0 ∧ s.status = ⟨.load, false, false, false, false, none⟩ ∧ s.errinfo = 0 ∧ s.pos = 0 ∧
    s.nsamp = 0 ∧ s.nframes = 0 ∧ s.sumFrom = 0 ∧ s.sumTo = 0 ∧ s.csumLo = 0 ∧ s.csumHi = 0 ∧ s.arV1 = 0 ∧
    s.arV2 = 0 ∧ s.crc32 = 0 ∧ s.crc32ss = 0 ∧ s.buf = [] ∧ s.readReg .cap = cfg.cap ∧
    s.readReg .config = (if cfg.hasStrip then 1 else 0) ∧ s.readReg .skip = 2940 ∧
    State.reset = State.resetWith State.reset.cfg

/-- Fault entry: the status word, `ERRINFO`, every other register, the buffer and the response (60_exceptions R130); and
the code of each error kind (R122). -/
def Obligations.FaultEntryClearsAndRecords : Prop :=
  ∀ (e : ErrorKind) (info : Word) (s : State),
    raise e info s = .next { s with
      status := ⟨.fault, false, false, false, false, some e⟩
      errinfo := info
      pos := 0, nsamp := 0, nframes := 0
      sumFrom := 0, sumTo := 0, csumLo := 0, csumHi := 0, arV1 := 0, arV2 := 0, crc32 := 0, crc32ss := 0
      buf := []
      rsp := some ⟨e.code, 0⟩ } ∧
    Status.word ⟨.fault, false, false, false, false, some e⟩ = (BitVec.setWidth 32 e.code <<< 8) ||| 3 ∧
    e.code.toNat = (match e with
      | .invalidArgument => 1
      | .unsupportedFormat => 2
      | .ioError => 3
      | .allocationFailure => 4
      | .concurrencyFailure => 5
      | .oddSampleCount => 6
      | .sequence => 7
      | .illegalCommand => 8
      | .badIndex => 9)

/-- In FAULT a legal `GET` and `CLEAR` are performed and every other word, legal or not, is ignored (60_exceptions
R132). -/
def Obligations.FaultPhaseIgnores : Prop :=
  ∀ (s : State) (w : Word), s.program[s.pc]? = some w → s.status.phase = .fault →
    (∀ r, decode s.cfg.hasStrip w = .ok (.get r) →
      step s = .next { s with pc := s.pc + 1, rsp := some ⟨s.status.errCode, s.readReg r⟩ }) ∧
    (decode s.cfg.hasStrip w = .ok .clear →
      step s = .next { State.resetWith s.cfg with program := s.program, pc := s.pc + 1, rsp := some ⟨0, 0⟩ }) ∧
    ((∀ r, decode s.cfg.hasStrip w ≠ .ok (.get r)) → decode s.cfg.hasStrip w ≠ .ok .clear →
      step s = .next { s with pc := s.pc + 1, rsp := some ⟨s.status.errCode, 0⟩ })

/-- One transaction raises at most one error, the one of the first failing check in the order encoding, phase and
precondition, argument or resource, with the `ERRINFO` of its kind; a transaction that raises none leaves no error; and
in FAULT nothing is raised: the recorded error stays unless the word is `CLEAR` (60_exceptions R127, R131). -/
def Obligations.FirstFailingCheckWins : Prop :=
  ∀ (s : State) (w : Word), s.Inv → s.program[s.pc]? = some w →
    (s.status.phase ≠ .fault →
      (∀ e info, transactionError s w = some (e, info) → step s = raise e info { s with pc := s.pc + 1 }) ∧
      (transactionError s w = none →
        ∃ t, step s = .next t ∧ t.status.phase ≠ .fault ∧ t.status.err = none ∧ t.errinfo = 0)) ∧
    (s.status.phase = .fault → decode s.cfg.hasStrip w ≠ .ok .clear →
      ∃ t, step s = .next t ∧ t.status = s.status ∧ t.errinfo = s.errinfo)

/-- A command that is not legal in the phase, or whose flag in brackets is 0, raises `Sequence` with its word, and one
that is legal does not (30_encoding R71, outside FAULT). -/
def Obligations.IllegalPhaseRaisesSequence : Prop :=
  ∀ (s : State) (i : Instr), i.wellFormed s.cfg.hasStrip = true → s.status.phase ≠ .fault →
    (legal s i = false → exec i s = raise .sequence (encode i) s) ∧
    (legal s i = true → ∀ info, exec i s ≠ raise .sequence info s)

/-- The phase changes by `SEAL` from LOAD to READY, by `STRIP` from READY to STRIPPED, by `CLEAR` to LOAD and by an
error to FAULT, and by nothing else (30_encoding R71, 10_state R18). -/
def Obligations.PhaseTransitions : Prop :=
  ∀ (s t : State), step s = .next t →
    t.status.phase = s.status.phase ∨
    ∃ w, s.program[s.pc]? = some w ∧
      ((decode s.cfg.hasStrip w = .ok .sealBuffer ∧ s.status.phase = .load ∧ t.status.phase = .ready) ∨
       (decode s.cfg.hasStrip w = .ok .strip ∧ s.status.phase = .ready ∧ t.status.phase = .stripped) ∨
       (decode s.cfg.hasStrip w = .ok .clear ∧ t.status.phase = .load) ∨
       (s.status.phase ≠ .fault ∧ t.status.phase = .fault ∧ t.status.err ≠ none))

/-! ### The registers -/

/-- The status word's fields at their bits, the bits not named 0 (10_state R17). -/
def Obligations.StatusWordLayout : Prop :=
  ∀ st : Status,
    st.word.extractLsb' 0 2 = (match st.phase with | .load => 0 | .ready => 1 | .stripped => 2 | .fault => 3) ∧
    st.word.getLsbD 2 = st.posValid ∧ st.word.getLsbD 3 = st.arValid ∧ st.word.getLsbD 4 = st.crcValid ∧
    st.word.getLsbD 5 = st.ssValid ∧ st.word.extractLsb' 6 2 = 0 ∧ st.word.extractLsb' 8 4 = st.errCode ∧
    st.word.extractLsb' 12 20 = 0

/-- `GET r` answers register number `r` in every phase and changes nothing else (43_sequencing R114); in a state a run
can reach, a result register whose flag is 0 answers 0 (10_state R34). -/
def Obligations.GetReturnsRegister : Prop :=
  ∀ (s : State) (n : BitVec 4),
    (∃ v, [s.status.word, s.errinfo, s.pos, s.nsamp, s.nframes, s.sumFrom, s.sumTo, s.csumLo, s.csumHi, s.arV1,
           s.arV2, s.crc32, s.crc32ss, s.cfg.cap, (if s.cfg.hasStrip then 1 else 0), 2940][n.toNat]? = some v ∧
      decode s.cfg.hasStrip (BitVec.ofNat 32 (0x90000000 + n.toNat)) = .ok (.get (Reg.ofNum n)) ∧
      exec (.get (Reg.ofNum n)) s = .next { s with rsp := some ⟨s.status.errCode, v⟩ }) ∧
    (s.Inv →
      (5 ≤ n.toNat ∧ n.toNat ≤ 10 ∧ s.status.arValid = false ∨ n.toNat = 11 ∧ s.status.crcValid = false ∨
        n.toNat = 12 ∧ s.status.ssValid = false) →
      exec (.get (Reg.ofNum n)) s = .next { s with rsp := some ⟨s.status.errCode, 0⟩ })

/-- The register numbers, and what can change each register: outside fault entry and `CLEAR`, only the commands its row
names (10_state R14). -/
def Obligations.RegistersChangeOnlyByTheirWriters : Prop :=
  (List.range 16).map (fun n => Reg.ofNum (BitVec.ofNat 4 n)) =
    [.status, .errinfo, .pos, .nsamp, .nframes, .sumFrom, .sumTo, .csumLo, .csumHi, .arV1, .arV2, .crc32, .crc32ss,
     .cap, .config, .skip] ∧
  ∀ (i : Instr) (s t : State) (r : Reg), exec i s = .next t →
    (t.status.phase = .fault → s.status.phase = .fault) → writesReg i r = false → t.readReg r = s.readReg r

/-- The three constant registers read `CAP`, `HAS_STRIP` in bit 0, and 2940, and nothing changes them, fault entry and
`CLEAR` included (10_state R29). -/
def Obligations.ConstantRegisters : Prop :=
  (∀ s : State, s.readReg .cap = s.cfg.cap ∧ (s.readReg .config).getLsbD 0 = s.cfg.hasStrip ∧
    (s.readReg .config).extractLsb' 1 31 = 0 ∧ s.readReg .skip = 2940) ∧
  (∀ s t : State, step s = .next t → t.cfg = s.cfg ∧ t.readReg .cap = s.readReg .cap ∧
    t.readReg .config = s.readReg .config ∧ t.readReg .skip = s.readReg .skip) ∧
  (∀ cfg : Config, (State.resetWith cfg).cfg = cfg)

/-- Each validity flag is set only by its own command and cleared only by `CLEAR` and fault entry (10_state R19). -/
def Obligations.FlagsAreSetByTheirCommand : Prop :=
  ∀ (i : Instr) (s t : State), exec i s = .next t →
    (t.status.posValid = true → s.status.posValid = true ∨ ∃ a b, i = .setpos a b) ∧
    (t.status.arValid = true → s.status.arValid = true ∨ i = .ar ∨ i = .arcrc) ∧
    (t.status.crcValid = true → s.status.crcValid = true ∨ i = .crc ∨ i = .arcrc) ∧
    (t.status.ssValid = true → s.status.ssValid = true ∨ i = .strip) ∧
    (i ≠ .clear → (t.status.phase = .fault → s.status.phase = .fault) →
      (s.status.posValid = true → t.status.posValid = true) ∧ (s.status.arValid = true → t.status.arValid = true) ∧
      (s.status.crcValid = true → t.status.crcValid = true) ∧ (s.status.ssValid = true → t.status.ssValid = true))

/-! ### The sequencing commands -/

/-- `NOP` changes nothing but the response, in every state; its word is 0 and 1 is no command (43_sequencing R111). -/
def Obligations.NopDoesNothing : Prop :=
  ∀ s : State, exec .nop s = .next { s with rsp := some ⟨s.status.errCode, 0⟩ } ∧
    decode s.cfg.hasStrip 0x00000000 = .ok .nop ∧ decode s.cfg.hasStrip 0x00000001 = .error .reservedBits

/-- `CLEAR`, in every phase, leaves the state reset leaves, with the response (0, 0); the host's list and index are not
the block's. It is the only way out of FAULT, and 0x10000001 is not `CLEAR` (43_sequencing R113, 70_reset_and_hazards
R142). -/
def Obligations.ClearIsReset : Prop :=
  ∀ s : State,
    exec .clear s =
      .next { State.resetWith s.cfg with rsp := some ⟨0, 0⟩, program := s.program, pc := s.pc } ∧
    decode s.cfg.hasStrip 0x10000000 = .ok .clear ∧ decode s.cfg.hasStrip 0x10000001 = .error .reservedBits ∧
    (∀ t, s.status.phase = .fault → step s = .next t → t.status.phase ≠ .fault →
      ∃ w, s.program[s.pc]? = some w ∧ decode s.cfg.hasStrip w = .ok .clear)

/-! ### Loading -/

/-- `SETPOS`: the position word and its flag within the bounds, `InvalidArgument` outside them, `Sequence` outside LOAD
(40_load_pack R75). -/
def Obligations.SetposRecordsPosition : Prop :=
  ∀ (s : State) (t n : BitVec 8),
    decode s.cfg.hasStrip (BitVec.ofNat 32 (0x20000000 + n.toNat * 2 ^ 8 + t.toNat)) = .ok (.setpos t n) ∧
    (s.status.phase = .load → 1 ≤ n.toNat → n.toNat ≤ 99 → 1 ≤ t.toNat → t.toNat ≤ n.toNat →
      exec (.setpos t n) s = .next { s with
        pos := BitVec.ofNat 32 (n.toNat * 2 ^ 8 + t.toNat)
        status := { s.status with posValid := true }
        rsp := some ⟨s.status.errCode, 0⟩ }) ∧
    (s.status.phase = .load → ¬(1 ≤ n.toNat ∧ n.toNat ≤ 99 ∧ 1 ≤ t.toNat ∧ t.toNat ≤ n.toNat) →
      exec (.setpos t n) s =
        raise .invalidArgument (BitVec.ofNat 32 (0x20000000 + n.toNat * 2 ^ 8 + t.toNat)) s) ∧
    (s.status.phase ≠ .load → s.status.phase ≠ .fault →
      exec (.setpos t n) s = raise .sequence (BitVec.ofNat 32 (0x20000000 + n.toNat * 2 ^ 8 + t.toNat)) s)

/-- `PUSH`: the sample's two bytes at byte address 2 · `NSAMP` and `NSAMP` + 1 while there is room,
`AllocationFailure` with `NSAMP` when the buffer is full, `Sequence` outside LOAD (40_load_pack R74). `NSAMP` ≤ `CAP`
holds in every state a run can reach (10_state R35 (b)). -/
def Obligations.PushAppendsSample : Prop :=
  ∀ (s : State) (x : Sample),
    decode s.cfg.hasStrip (BitVec.ofNat 32 (0x30000000 + x.toNat)) = .ok (.push x) ∧
    (s.status.phase = .load → s.nsamp.toNat < s.cfg.cap.toNat →
      exec (.push x) s = .next { s with
        buf := (s.buf.writeByte (2 * s.nsamp.toNat) (BitVec.ofNat 8 x.toNat)).writeByte (2 * s.nsamp.toNat + 1)
          (BitVec.ofNat 8 (x.toNat / 2 ^ 8))
        nsamp := BitVec.ofNat 32 (s.nsamp.toNat + 1)
        rsp := some ⟨s.status.errCode, 0⟩ }) ∧
    (s.status.phase = .load → s.nsamp = s.cfg.cap → exec (.push x) s = raise .allocationFailure s.nsamp s) ∧
    (s.status.phase ≠ .load → s.status.phase ≠ .fault →
      exec (.push x) s = raise .sequence (BitVec.ofNat 32 (0x30000000 + x.toNat)) s)

/-- What `PUSH` stores and leaves, byte by byte: the low byte at 2 · `NSAMP`, the high byte above it, every other byte
as before; and seen as samples, the buffer is the old one with the new sample at its end (20_memory R42, R45, R55). -/
def Obligations.PushStoresTwoBytes : Prop :=
  ∀ (s t : State) (x : Sample), s.status.phase = .load → s.nsamp.toNat < s.cfg.cap.toNat →
    exec (.push x) s = .next t →
    t.buf.readByte (2 * s.nsamp.toNat) = some (x.extractLsb' 0 8) ∧
    t.buf.readByte (2 * s.nsamp.toNat + 1) = some (x.extractLsb' 8 8) ∧
    (∀ a, a ≠ 2 * s.nsamp.toNat → a ≠ 2 * s.nsamp.toNat + 1 → t.buf.readByte a = s.buf.readByte a) ∧
    (s.BufferOk → t.BufferOk ∧ t.samples = s.samples ++ [x])

/-- `SEAL`: `NFRAMES` = `NSAMP` / 2 and phase READY for an even count, `OddSampleCount` with `NSAMP` for an odd one,
`Sequence` outside LOAD (40_load_pack R76). -/
def Obligations.SealPairsSamples : Prop :=
  ∀ s : State,
    decode s.cfg.hasStrip 0x40000000 = .ok .sealBuffer ∧
    (s.status.phase = .load → s.nsamp.toNat % 2 = 0 →
      exec .sealBuffer s = .next { s with
        nframes := BitVec.ofNat 32 (s.nsamp.toNat / 2)
        status := { s.status with phase := .ready }
        rsp := some ⟨s.status.errCode, 0⟩ }) ∧
    (s.status.phase = .load → s.nsamp.toNat % 2 = 1 → exec .sealBuffer s = raise .oddSampleCount s.nsamp s) ∧
    (s.status.phase ≠ .load → s.status.phase ≠ .fault → exec .sealBuffer s = raise .sequence 0x40000000 s)

/-- The packer: frame `j` is its first sample plus 2^16 times its second, the first in bits 15:0 and the second in bits
31:16, and the four bytes from 4`j` on, little-endian (40_load_pack R73, lanes R78). It is the frame `PEEKF` reads and
frame `j` of the list the passes of `AR` and `ARCRC` run over, which has one frame for every two samples. -/
def Obligations.FramePacksTwoSamples : Prop :=
  ∀ s : State, s.BufferOk → s.nsamp.toNat ≤ s.cfg.cap.toNat →
    s.frames.length = s.nsamp.toNat / 2 ∧
    ∀ j : Nat, 2 * j + 1 < s.nsamp.toNat →
      ∃ l r f, s.samples[2 * j]? = some l ∧ s.samples[2 * j + 1]? = some r ∧ s.frame j = .ok f ∧
        s.frames[j]? = some f ∧ f = BitVec.ofNat 32 (l.toNat + r.toNat * 2 ^ 16) ∧
        f.extractLsb' 0 16 = l ∧ f.extractLsb' 16 16 = r ∧
        s.memRead (4 * j) 4 = .ok (l.toNat + r.toNat * 2 ^ 16)

/-- `PEEKF j`: the packed frame in the response and no state written, `BadIndex` at or above `NFRAMES`, `Sequence`
outside READY (40_load_pack R77). -/
def Obligations.PeekfReturnsFrame : Prop :=
  ∀ (s : State) (j : BitVec 28),
    decode s.cfg.hasStrip (BitVec.ofNat 32 (0xA0000000 + j.toNat)) = .ok (.peekf j) ∧
    (s.Inv → s.status.phase = .ready → j.toNat < s.nframes.toNat →
      ∃ l r, s.samples[2 * j.toNat]? = some l ∧ s.samples[2 * j.toNat + 1]? = some r ∧
        exec (.peekf j) s =
          .next { s with rsp := some ⟨s.status.errCode, BitVec.ofNat 32 (l.toNat + r.toNat * 2 ^ 16)⟩ }) ∧
    (s.status.phase = .ready → s.nframes.toNat ≤ j.toNat →
      exec (.peekf j) s = raise .badIndex (BitVec.ofNat 32 (0xA0000000 + j.toNat)) s) ∧
    (s.status.phase ≠ .ready → s.status.phase ≠ .fault →
      exec (.peekf j) s = raise .sequence (BitVec.ofNat 32 (0xA0000000 + j.toNat)) s)

/-! ### The AccurateRip pass -/

/-- `AR`: the window of 41_accuraterip R86, the two sums of the pass over the frames, v1 and v2, and the flag;
`Sequence` outside READY or without a Track Position (41_accuraterip R85, R86, R89). -/
def Obligations.ArComputesChecksums : Prop :=
  ∀ s : State,
    decode s.cfg.hasStrip 0x50000000 = .ok .ar ∧
    (s.Inv → s.status.phase = .ready → s.status.posValid = true →
      let first := s.pos.extractLsb' 0 8 = 1
      let last := s.pos.extractLsb' 0 8 = s.pos.extractLsb' 8 8
      let w : Window := ⟨if first then 2940 else 0, if last then (s.nframes.toNat : Int) - 2940 else s.nframes.toNat⟩
      let r := arPass w 1 ⟨0, 0⟩ s.frames
      exec .ar s = .next { s with
        sumFrom := BitVec.ofInt 32 w.sumFrom
        sumTo := BitVec.ofInt 32 w.sumTo
        csumLo := r.lo, csumHi := r.hi, arV1 := r.lo, arV2 := r.lo + r.hi
        status := { s.status with arValid := true }
        rsp := some ⟨s.status.errCode, 0⟩ }) ∧
    (s.status.phase ≠ .ready → s.status.phase ≠ .fault → exec .ar s = raise .sequence 0x50000000 s) ∧
    (s.status.phase = .ready → s.status.posValid = false → exec .ar s = raise .sequence 0x50000000 s)

/-- The pass in closed form: the low sum is the sum of the products of the admitted frames modulo 2^32, the high sum the
sum of the products' high halves modulo 2^32, with `m` = `j` + 1 and frame `j` written as its two samples
(41_accuraterip R90, from R85 and R88; 40_load_pack R73). -/
def Obligations.ArClosedForm : Prop :=
  ∀ s : State, s.Inv → s.status.phase = .ready → s.status.posValid = true →
    let window := (Finset.range s.nframes.toNat).filter fun j =>
      (if s.pos.extractLsb' 0 8 = 1 then (2940 : Int) else 0) ≤ ((j + 1 : Nat) : Int) ∧
      ((j + 1 : Nat) : Int) ≤ (if s.pos.extractLsb' 0 8 = s.pos.extractLsb' 8 8 then (s.nframes.toNat : Int) - 2940
        else s.nframes.toNat)
    let frame : Nat → Nat := fun j =>
      (s.samples.getD (2 * j) 0).toNat + (s.samples.getD (2 * j + 1) 0).toNat * 2 ^ 16
    let product : Nat → Nat := fun j => frame j * (j + 1)
    ∃ t, exec .ar s = .next t ∧
      t.csumLo = BitVec.ofNat 32 (∑ j ∈ window, product j) ∧
      t.csumHi = BitVec.ofNat 32 (∑ j ∈ window, product j / 2 ^ 32) ∧
      t.arV1 = t.csumLo ∧ t.arV2 = t.csumLo + t.csumHi

/-- On a last track shorter than 2940 frames the upper end is negative, `SUM_TO` reads its two's complement, and nothing
is summed (41_accuraterip R96). -/
def Obligations.ShortLastTrackSumsNothing : Prop :=
  ∀ s : State, s.Inv → s.status.phase = .ready → s.status.posValid = true →
    s.pos.extractLsb' 0 8 = s.pos.extractLsb' 8 8 → s.nframes.toNat < 2940 →
    ∃ t, exec .ar s = .next t ∧ t.sumTo = BitVec.ofNat 32 (2 ^ 32 + s.nframes.toNat - 2940) ∧
      t.sumTo.toInt = (s.nframes.toNat : Int) - 2940 ∧
      t.csumLo = 0 ∧ t.csumHi = 0 ∧ t.arV1 = 0 ∧ t.arV2 = 0 ∧ t.status.arValid = true

/-- When the window holds no multiplier of the buffer, by Track Position, and that the sums are then 0 (41_accuraterip
R93, its table from R86). -/
def Obligations.EmptyWindowByPosition : Prop :=
  ∀ (pos n : Word),
    let empty := ∀ m : Nat, 1 ≤ m → m ≤ n.toNat → (windowOf pos n).admits m = false
    let first := pos.extractLsb' 0 8 = 1
    let last := pos.extractLsb' 0 8 = pos.extractLsb' 8 8
    (¬first → ¬last → (empty ↔ n.toNat = 0)) ∧
    (first → ¬last → (empty ↔ n.toNat < 2940)) ∧
    (¬first → last → (empty ↔ n.toNat ≤ 2940)) ∧
    (first → last → (empty ↔ n.toNat < 5880)) ∧
    (empty → ∀ fs : List Word, fs.length = n.toNat → arPass (windowOf pos n) 1 ⟨0, 0⟩ fs = ⟨0, 0⟩)

/-- No product of the pass leaves 64 bits, or even 60: a frame's multiplier is at most 2^28, and the high half of a
product is below the multiplier (41_accuraterip R88, R95). -/
def Obligations.ProductsNeverOverflow : Prop :=
  ∀ (s : State) (j : Nat) (f : Word), s.Inv → s.status.phase = .ready → s.frames[j]? = some f →
    j + 1 ≤ s.nframes.toNat ∧ j + 1 ≤ 2 ^ 28 ∧ f.toNat * (j + 1) < 2 ^ 60 ∧ f.toNat * (j + 1) / 2 ^ 32 < j + 1

/-- `AR_V2` − `AR_V1` = `CSUM_HI` modulo 2^32 after every step, whatever the samples (41_accuraterip R92, from R89). -/
def Obligations.V2MinusV1IsHighSum : Prop :=
  ∀ s t : State, s.Inv → step s = .next t → t.arV2 - t.arV1 = t.csumHi

/-! ### The CRC32 engine -/

/-- `CRC`: the CRC32 of the samples' bytes, low byte first, and the flag; 0 for the empty buffer; `Sequence` outside
READY (42_crc32 R100). -/
def Obligations.CrcComputesWholeBuffer : Prop :=
  ∀ s : State,
    decode s.cfg.hasStrip 0x60000000 = .ok .crc ∧
    (s.Inv → s.status.phase = .ready →
      exec .crc s = .next { s with
        crc32 := crc32Of (bytesOf s.samples)
        status := { s.status with crcValid := true }
        rsp := some ⟨s.status.errCode, 0⟩ } ∧
      s.samples.length = s.nsamp.toNat ∧ (s.nsamp = 0 → crc32Of (bytesOf s.samples) = 0)) ∧
    (s.status.phase ≠ .ready → s.status.phase ≠ .fault → exec .crc s = raise .sequence 0x60000000 s)

/-- The check values of the CRC-32 of zlib and gzip (42_crc32 R98). -/
def Obligations.CrcCheckValues : Prop :=
  crc32Of [0x31, 0x32, 0x33, 0x34, 0x35, 0x36, 0x37, 0x38, 0x39] = 0xCBF43926 ∧ crc32Of [] = 0 ∧
  crc32Of [0] = 0xD202EF8D ∧ crc32Of [0, 0] = 0x41D912FF

/-- The remainder composes over concatenation, and the CRC32 of the samples that are not zero is the engine fed only
those, without building the compacted buffer (42_crc32 R101). -/
def Obligations.CrcComposes : Prop :=
  (∀ (c : Word) (a b : List Byte), crcRun c (a ++ b) = crcRun (crcRun c a) b) ∧
  (∀ xs : List Sample,
    crc32Of (bytesOf (strip xs)) =
      xs.foldl (fun c x => if x = 0 then c else crcByte (crcByte c (x.extractLsb' 0 8)) (x.extractLsb' 8 8))
        0xFFFFFFFF ^^^ 0xFFFFFFFF)

/-- One byte of the CRC is one table look-up: with T[n] the eight steps from n, the next remainder is
T[(c xor b)[7:0]] xor (c >> 8) (42_crc32 R99). -/
def Obligations.CrcTableForm : Prop :=
  (∀ (c : Word) (b : Byte),
    crcByte c b = crcBits 8 (BitVec.setWidth 32 ((c ^^^ BitVec.setWidth 32 b).extractLsb' 0 8)) ^^^ (c >>> 8)) ∧
  crcBits 8 0 = 0 ∧ crcBits 8 1 = 0x77073096 ∧ crcBits 8 2 = 0xEE0E612C ∧ crcBits 8 128 = 0xEDB88320 ∧
  crcBits 8 255 = 0x2D02EF8D

/-- `STRIP`: the buffer compacted to its samples that are not zero, in order, their count, the CRC32 of their bytes, the
flag and the phase; `Sequence` outside READY or before the whole-buffer CRC; `IllegalCommand` where the build lacks it
(42_crc32 R102, R103). -/
def Obligations.StripCompactsAndComputes : Prop :=
  ∀ s : State,
    decode s.cfg.hasStrip 0x80000000 = (if s.cfg.hasStrip then .ok .strip else .error .stripNotBuilt) ∧
    (s.Inv → s.cfg.hasStrip = true → s.status.phase = .ready → s.status.crcValid = true →
      let kept := s.samples.filter (fun x => x ≠ 0)
      exec .strip s = .next { s with
        buf := Memory.ofBytes 0 (bytesOf kept)
        nsamp := BitVec.ofNat 32 kept.length
        crc32ss := crc32Of (bytesOf kept)
        status := { s.status with ssValid := true, phase := .stripped }
        rsp := some ⟨s.status.errCode, 0⟩ } ∧
      (∀ a, (Memory.ofBytes 0 (bytesOf kept)).readByte a = (bytesOf kept)[a]?) ∧ kept.length ≤ s.nsamp.toNat) ∧
    (s.cfg.hasStrip = true → s.status.phase ≠ .ready → s.status.phase ≠ .fault →
      exec .strip s = raise .sequence 0x80000000 s) ∧
    (s.cfg.hasStrip = true → s.status.phase = .ready → s.status.crcValid = false →
      exec .strip s = raise .sequence 0x80000000 s) ∧
    (s.cfg.hasStrip = false → s.status.phase ≠ .fault → exec .strip s = raise .illegalCommand 0x80000000 s)

/-- The compaction is the in-place loop of the spec: the read index runs over the samples, the write index over the
survivors, and the cells behind the survivors are dropped (42_crc32 R102, R104). -/
def Obligations.StripIsTheInPlaceLoop : Prop :=
  ∀ s : State, s.Inv → s.cfg.hasStrip = true → s.status.phase = .ready → s.status.crcValid = true →
    ∃ m k t, compactLoop s.buf 0 0 s.nsamp.toNat = some (m, k) ∧ k ≤ s.nsamp.toNat ∧ exec .strip s = .next t ∧
      t.buf = truncateTo k m ∧ t.nsamp.toNat = k ∧ t.crc32ss = crc32Of ((truncateTo k m).map Prod.snd)

/-- `CRC32_SS` depends only on the samples that are not zero: two buffers with the same ones give the same checksum,
count and compacted buffer, however many zero samples either has and wherever they lie; and stripping twice is stripping
once (42_crc32 R105). -/
def Obligations.SilenceDoesNotMatter : Prop :=
  (∀ s u : State, s.Inv → u.Inv → s.cfg.hasStrip = true → u.cfg.hasStrip = true → s.status.phase = .ready →
    u.status.phase = .ready → s.status.crcValid = true → u.status.crcValid = true →
    s.samples.filter (fun x => x ≠ 0) = u.samples.filter (fun x => x ≠ 0) →
    ∃ t v, exec .strip s = .next t ∧ exec .strip u = .next v ∧ t.crc32ss = v.crc32ss ∧ t.nsamp = v.nsamp ∧
      t.buf = v.buf) ∧
  (∀ xs : List Sample, strip (strip xs) = strip xs)

/-- A buffer without a zero sample is left as it is by `STRIP`, and its two CRC32 values agree (42_crc32 R102, corner
cases). -/
def Obligations.StripOfSoundingTrack : Prop :=
  ∀ s : State, s.Inv → s.Truthful → s.cfg.hasStrip = true → s.status.phase = .ready → s.status.crcValid = true →
    (∀ x ∈ s.samples, x ≠ 0) →
    ∃ t, exec .strip s = .next t ∧ t.buf = s.buf ∧ t.nsamp = s.nsamp ∧ t.crc32ss = t.crc32

/-! ### The two engines together -/

/-- `ARCRC`: the registers and flags of both passes, the phase and the buffer as before; `Sequence` outside READY or
without a Track Position, with neither pass run (43_sequencing R112). The end state is that of `AR` then `CRC`, and of
`CRC` then `AR`. -/
def Obligations.ArcrcIsBothPasses : Prop :=
  ∀ s : State,
    decode s.cfg.hasStrip 0x70000000 = .ok .arcrc ∧
    (s.Inv → s.status.phase = .ready → s.status.posValid = true →
      ∃ t u v,
        exec .arcrc s = .next t ∧
        t = { s with
          sumFrom := t.sumFrom, sumTo := t.sumTo, csumLo := t.csumLo, csumHi := t.csumHi, arV1 := t.arV1
          arV2 := t.arV2
          crc32 := crc32Of (bytesOf s.samples)
          status := { s.status with arValid := true, crcValid := true }
          rsp := some ⟨s.status.errCode, 0⟩ } ∧
        exec .ar s = .next u ∧ exec .crc u = .next t ∧ exec .crc s = .next v ∧ exec .ar v = .next t) ∧
    (s.status.phase ≠ .ready → s.status.phase ≠ .fault → exec .arcrc s = raise .sequence 0x70000000 s) ∧
    (s.status.phase = .ready → s.status.posValid = false → exec .arcrc s = raise .sequence 0x70000000 s)

/-- Whatever the order of the two engines' buffer accesses inside `ARCRC`, once both have ended the registers hold what
`ARCRC` leaves (20_memory R52). The engines as agents that take turns are the model's form of R52's two agents
(log entry 7). -/
def Obligations.EveryInterleavingAgrees : Prop :=
  ∀ (s : State) (schedule : List Turn), s.Inv → s.status.phase = .ready → s.status.posValid = true →
    ((Engines.start s.frames s.bytes).run (windowOf s.pos s.nframes) schedule).joined = true →
    exec .arcrc s =
      .next ((s.writeJoin ((Engines.start s.frames s.bytes).run (windowOf s.pos s.nframes) schedule)).respond 0)

/-- Repeating a reading command changes nothing further: `NOP`, `GET`, `PEEKF`, `AR`, `CRC` and `ARCRC` issued again
leave the state as it is, the response included (20_memory R48). -/
def Obligations.RepeatedReadsChangeNothing : Prop :=
  ∀ (i : Instr) (s t : State),
    (i = .nop ∨ (∃ r, i = .get r) ∨ (∃ j, i = .peekf j) ∨ i = .ar ∨ i = .crc ∨ i = .arcrc) →
    exec i s = .next t → exec i t = .next t

/-! ### The buffer -/

/-- The buffer is little-endian: the bytes of sample `i` lie at 2`i` and 2`i` + 1, the low one first, for every `i`
below `NSAMP`, and no byte beyond holds a value (20_memory R42, 10_state R30). The byte at each address is the one of
the byte sequence of the samples, which is also the sequence the CRC passes run over (42_crc32 R97). -/
def Obligations.SamplesAreLittleEndian : Prop :=
  ∀ s : State, s.BufferOk →
    s.samples.length = s.nsamp.toNat ∧
    (∀ (i : Nat) (x : Sample), s.samples[i]? = some x →
      s.buf.readByte (2 * i) = some (x.extractLsb' 0 8) ∧ s.buf.readByte (2 * i + 1) = some (x.extractLsb' 8 8)) ∧
    (∀ a, 2 * s.nsamp.toNat ≤ a → s.buf.readByte a = none) ∧
    (∀ a, s.buf.readByte a = (bytesOf s.samples)[a]?) ∧ s.bytes = bytesOf s.samples

/-- A byte read is the byte most recently written there, and every other byte is as before (20_memory R55). -/
def Obligations.ReadAfterWrite : Prop :=
  ∀ (m : Memory) (a b : Nat) (bs : List Byte),
    (m.writeBytes a bs).readByte b = if a ≤ b ∧ b < a + bs.length then bs[b - a]? else m.readByte b

/-- Every step keeps the rising form of the buffer's bytes, in every state that has it (the model's canonical form of
the buffer, log entry 5). -/
def Obligations.StepKeepsCanonicalForm : Prop :=
  ∀ s t : State, s.buf.wf → step s = .next t → t.buf.wf

/-- Only `PUSH`, `STRIP`, `CLEAR` and fault entry touch the buffer; every byte reads as before after any other command
(20_memory R41, R46, R47). -/
def Obligations.OtherCommandsLeaveTheBuffer : Prop :=
  ∀ (i : Instr) (s t : State), exec i s = .next t → (t.status.phase = .fault → s.status.phase = .fault) →
    (∀ x, i ≠ .push x) → i ≠ .strip → i ≠ .clear → ∀ a, t.buf.readByte a = s.buf.readByte a

/-- While the phase stays READY the buffer, its counts and the Track Position stay as they were sealed (10_state R18). -/
def Obligations.ReadyBufferIsImmutable : Prop :=
  ∀ s t : State, step s = .next t → s.status.phase = .ready → t.status.phase = .ready →
    t.buf = s.buf ∧ t.nsamp = s.nsamp ∧ t.nframes = s.nframes ∧ t.pos = s.pos

/-! ### Invariants of every step -/

/-- The invariant, and what the flags promise, hold after reset in every build of the spec's range (10_state R33,
R35). -/
def Obligations.ResetMeetsInvariant : Prop :=
  ∀ cfg : Config, cfg.InRange → (State.resetWith cfg).Inv ∧ (State.resetWith cfg).Truthful

/-- Every step from a state that meets the invariant gives one that meets it (10_state R35). -/
def Obligations.StepKeepsInvariant : Prop :=
  ∀ s t : State, s.Inv → step s = .next t → t.Inv

/-- A set flag never lies: what `CRC_VALID`, `AR_VALID` and `SS_VALID` promise of the registers is kept by every step
(10_state R17, R28). -/
def Obligations.FlagsStayTruthful : Prop :=
  ∀ s t : State, s.Inv → s.Truthful → step s = .next t → t.Truthful

/-- Every word in every state that meets the invariant has a next state: the machine never stops (30_encoding R72,
70_reset_and_hazards R153). -/
def Obligations.EveryStepCompletes : Prop :=
  ∀ s : State, s.Inv → ∃ t, step s = .next t
end

