-- ==== Sys2Proof/Laws/State.lean ====
section
/-! SUPPORT. One lemma per field per named update of the state, so that no proof unfolds a record update. -/

namespace Sys2Proof.Machine

/-! ### `State.respond` -/

@[simp] theorem State.respond_cfg (s : State) (d : Word) : (s.respond d).cfg = s.cfg := rfl
@[simp] theorem State.respond_status (s : State) (d : Word) : (s.respond d).status = s.status := rfl
@[simp] theorem State.respond_errinfo (s : State) (d : Word) : (s.respond d).errinfo = s.errinfo := rfl
@[simp] theorem State.respond_pos (s : State) (d : Word) : (s.respond d).pos = s.pos := rfl
@[simp] theorem State.respond_nsamp (s : State) (d : Word) : (s.respond d).nsamp = s.nsamp := rfl
@[simp] theorem State.respond_nframes (s : State) (d : Word) : (s.respond d).nframes = s.nframes := rfl
@[simp] theorem State.respond_sumFrom (s : State) (d : Word) : (s.respond d).sumFrom = s.sumFrom := rfl
@[simp] theorem State.respond_sumTo (s : State) (d : Word) : (s.respond d).sumTo = s.sumTo := rfl
@[simp] theorem State.respond_csumLo (s : State) (d : Word) : (s.respond d).csumLo = s.csumLo := rfl
@[simp] theorem State.respond_csumHi (s : State) (d : Word) : (s.respond d).csumHi = s.csumHi := rfl
@[simp] theorem State.respond_arV1 (s : State) (d : Word) : (s.respond d).arV1 = s.arV1 := rfl
@[simp] theorem State.respond_arV2 (s : State) (d : Word) : (s.respond d).arV2 = s.arV2 := rfl
@[simp] theorem State.respond_crc32 (s : State) (d : Word) : (s.respond d).crc32 = s.crc32 := rfl
@[simp] theorem State.respond_crc32ss (s : State) (d : Word) : (s.respond d).crc32ss = s.crc32ss := rfl
@[simp] theorem State.respond_buf (s : State) (d : Word) : (s.respond d).buf = s.buf := rfl
@[simp] theorem State.respond_rsp (s : State) (d : Word) : (s.respond d).rsp = some ⟨s.status.errCode, d⟩ := rfl
@[simp] theorem State.respond_program (s : State) (d : Word) : (s.respond d).program = s.program := rfl
@[simp] theorem State.respond_pc (s : State) (d : Word) : (s.respond d).pc = s.pc := rfl

/-! ### `State.advance` -/

@[simp] theorem State.advance_cfg (s : State) : s.advance.cfg = s.cfg := rfl
@[simp] theorem State.advance_status (s : State) : s.advance.status = s.status := rfl
@[simp] theorem State.advance_errinfo (s : State) : s.advance.errinfo = s.errinfo := rfl
@[simp] theorem State.advance_pos (s : State) : s.advance.pos = s.pos := rfl
@[simp] theorem State.advance_nsamp (s : State) : s.advance.nsamp = s.nsamp := rfl
@[simp] theorem State.advance_nframes (s : State) : s.advance.nframes = s.nframes := rfl
@[simp] theorem State.advance_sumFrom (s : State) : s.advance.sumFrom = s.sumFrom := rfl
@[simp] theorem State.advance_sumTo (s : State) : s.advance.sumTo = s.sumTo := rfl
@[simp] theorem State.advance_csumLo (s : State) : s.advance.csumLo = s.csumLo := rfl
@[simp] theorem State.advance_csumHi (s : State) : s.advance.csumHi = s.csumHi := rfl
@[simp] theorem State.advance_arV1 (s : State) : s.advance.arV1 = s.arV1 := rfl
@[simp] theorem State.advance_arV2 (s : State) : s.advance.arV2 = s.arV2 := rfl
@[simp] theorem State.advance_crc32 (s : State) : s.advance.crc32 = s.crc32 := rfl
@[simp] theorem State.advance_crc32ss (s : State) : s.advance.crc32ss = s.crc32ss := rfl
@[simp] theorem State.advance_buf (s : State) : s.advance.buf = s.buf := rfl
@[simp] theorem State.advance_rsp (s : State) : s.advance.rsp = s.rsp := rfl
@[simp] theorem State.advance_program (s : State) : s.advance.program = s.program := rfl
@[simp] theorem State.advance_pc (s : State) : s.advance.pc = s.pc + 1 := rfl

/-! ### `State.release` -/

@[simp] theorem State.release_cfg (s : State) : s.release.cfg = s.cfg := rfl
@[simp] theorem State.release_status (s : State) : s.release.status = s.status := rfl
@[simp] theorem State.release_errinfo (s : State) : s.release.errinfo = s.errinfo := rfl
@[simp] theorem State.release_pos (s : State) : s.release.pos = 0 := rfl
@[simp] theorem State.release_nsamp (s : State) : s.release.nsamp = 0 := rfl
@[simp] theorem State.release_nframes (s : State) : s.release.nframes = 0 := rfl
@[simp] theorem State.release_sumFrom (s : State) : s.release.sumFrom = 0 := rfl
@[simp] theorem State.release_sumTo (s : State) : s.release.sumTo = 0 := rfl
@[simp] theorem State.release_csumLo (s : State) : s.release.csumLo = 0 := rfl
@[simp] theorem State.release_csumHi (s : State) : s.release.csumHi = 0 := rfl
@[simp] theorem State.release_arV1 (s : State) : s.release.arV1 = 0 := rfl
@[simp] theorem State.release_arV2 (s : State) : s.release.arV2 = 0 := rfl
@[simp] theorem State.release_crc32 (s : State) : s.release.crc32 = 0 := rfl
@[simp] theorem State.release_crc32ss (s : State) : s.release.crc32ss = 0 := rfl
@[simp] theorem State.release_buf (s : State) : s.release.buf = [] := rfl
@[simp] theorem State.release_rsp (s : State) : s.release.rsp = s.rsp := rfl
@[simp] theorem State.release_program (s : State) : s.release.program = s.program := rfl
@[simp] theorem State.release_pc (s : State) : s.release.pc = s.pc := rfl

/-! ### `State.enterFault` -/

@[simp] theorem State.enterFault_cfg (s : State) (e : ErrorKind) (info : Word) :
    (s.enterFault e info).cfg = s.cfg := rfl
@[simp] theorem State.enterFault_status (s : State) (e : ErrorKind) (info : Word) :
    (s.enterFault e info).status = Status.faulted e := rfl
@[simp] theorem State.enterFault_errinfo (s : State) (e : ErrorKind) (info : Word) :
    (s.enterFault e info).errinfo = info := rfl
@[simp] theorem State.enterFault_pos (s : State) (e : ErrorKind) (info : Word) : (s.enterFault e info).pos = 0 := rfl
@[simp] theorem State.enterFault_nsamp (s : State) (e : ErrorKind) (info : Word) :
    (s.enterFault e info).nsamp = 0 := rfl
@[simp] theorem State.enterFault_nframes (s : State) (e : ErrorKind) (info : Word) :
    (s.enterFault e info).nframes = 0 := rfl
@[simp] theorem State.enterFault_sumFrom (s : State) (e : ErrorKind) (info : Word) :
    (s.enterFault e info).sumFrom = 0 := rfl
@[simp] theorem State.enterFault_sumTo (s : State) (e : ErrorKind) (info : Word) :
    (s.enterFault e info).sumTo = 0 := rfl
@[simp] theorem State.enterFault_csumLo (s : State) (e : ErrorKind) (info : Word) :
    (s.enterFault e info).csumLo = 0 := rfl
@[simp] theorem State.enterFault_csumHi (s : State) (e : ErrorKind) (info : Word) :
    (s.enterFault e info).csumHi = 0 := rfl
@[simp] theorem State.enterFault_arV1 (s : State) (e : ErrorKind) (info : Word) :
    (s.enterFault e info).arV1 = 0 := rfl
@[simp] theorem State.enterFault_arV2 (s : State) (e : ErrorKind) (info : Word) :
    (s.enterFault e info).arV2 = 0 := rfl
@[simp] theorem State.enterFault_crc32 (s : State) (e : ErrorKind) (info : Word) :
    (s.enterFault e info).crc32 = 0 := rfl
@[simp] theorem State.enterFault_crc32ss (s : State) (e : ErrorKind) (info : Word) :
    (s.enterFault e info).crc32ss = 0 := rfl
@[simp] theorem State.enterFault_buf (s : State) (e : ErrorKind) (info : Word) : (s.enterFault e info).buf = [] := rfl
@[simp] theorem State.enterFault_rsp (s : State) (e : ErrorKind) (info : Word) :
    (s.enterFault e info).rsp = s.rsp := rfl
@[simp] theorem State.enterFault_program (s : State) (e : ErrorKind) (info : Word) :
    (s.enterFault e info).program = s.program := rfl
@[simp] theorem State.enterFault_pc (s : State) (e : ErrorKind) (info : Word) : (s.enterFault e info).pc = s.pc := rfl

/-! ### `State.cleared` -/

@[simp] theorem State.cleared_cfg (s : State) : s.cleared.cfg = s.cfg := rfl
@[simp] theorem State.cleared_status (s : State) : s.cleared.status = Status.initial := rfl
@[simp] theorem State.cleared_errinfo (s : State) : s.cleared.errinfo = 0 := rfl
@[simp] theorem State.cleared_pos (s : State) : s.cleared.pos = 0 := rfl
@[simp] theorem State.cleared_nsamp (s : State) : s.cleared.nsamp = 0 := rfl
@[simp] theorem State.cleared_nframes (s : State) : s.cleared.nframes = 0 := rfl
@[simp] theorem State.cleared_sumFrom (s : State) : s.cleared.sumFrom = 0 := rfl
@[simp] theorem State.cleared_sumTo (s : State) : s.cleared.sumTo = 0 := rfl
@[simp] theorem State.cleared_csumLo (s : State) : s.cleared.csumLo = 0 := rfl
@[simp] theorem State.cleared_csumHi (s : State) : s.cleared.csumHi = 0 := rfl
@[simp] theorem State.cleared_arV1 (s : State) : s.cleared.arV1 = 0 := rfl
@[simp] theorem State.cleared_arV2 (s : State) : s.cleared.arV2 = 0 := rfl
@[simp] theorem State.cleared_crc32 (s : State) : s.cleared.crc32 = 0 := rfl
@[simp] theorem State.cleared_crc32ss (s : State) : s.cleared.crc32ss = 0 := rfl
@[simp] theorem State.cleared_buf (s : State) : s.cleared.buf = [] := rfl
@[simp] theorem State.cleared_rsp (s : State) : s.cleared.rsp = s.rsp := rfl
@[simp] theorem State.cleared_program (s : State) : s.cleared.program = s.program := rfl
@[simp] theorem State.cleared_pc (s : State) : s.cleared.pc = s.pc := rfl

/-! ### `State.writeSums` -/

@[simp] theorem State.writeSums_cfg (s : State) (w : Window) (r : Sums) : (s.writeSums w r).cfg = s.cfg := rfl
@[simp] theorem State.writeSums_status (s : State) (w : Window) (r : Sums) :
    (s.writeSums w r).status = { s.status with arValid := true } := rfl
@[simp] theorem State.writeSums_errinfo (s : State) (w : Window) (r : Sums) :
    (s.writeSums w r).errinfo = s.errinfo := rfl
@[simp] theorem State.writeSums_pos (s : State) (w : Window) (r : Sums) : (s.writeSums w r).pos = s.pos := rfl
@[simp] theorem State.writeSums_nsamp (s : State) (w : Window) (r : Sums) : (s.writeSums w r).nsamp = s.nsamp := rfl
@[simp] theorem State.writeSums_nframes (s : State) (w : Window) (r : Sums) :
    (s.writeSums w r).nframes = s.nframes := rfl
@[simp] theorem State.writeSums_sumFrom (s : State) (w : Window) (r : Sums) :
    (s.writeSums w r).sumFrom = BitVec.ofInt 32 w.sumFrom := rfl
@[simp] theorem State.writeSums_sumTo (s : State) (w : Window) (r : Sums) :
    (s.writeSums w r).sumTo = BitVec.ofInt 32 w.sumTo := rfl
@[simp] theorem State.writeSums_csumLo (s : State) (w : Window) (r : Sums) : (s.writeSums w r).csumLo = r.lo := rfl
@[simp] theorem State.writeSums_csumHi (s : State) (w : Window) (r : Sums) : (s.writeSums w r).csumHi = r.hi := rfl
@[simp] theorem State.writeSums_arV1 (s : State) (w : Window) (r : Sums) : (s.writeSums w r).arV1 = r.lo := rfl
@[simp] theorem State.writeSums_arV2 (s : State) (w : Window) (r : Sums) : (s.writeSums w r).arV2 = r.lo + r.hi := rfl
@[simp] theorem State.writeSums_crc32 (s : State) (w : Window) (r : Sums) : (s.writeSums w r).crc32 = s.crc32 := rfl
@[simp] theorem State.writeSums_crc32ss (s : State) (w : Window) (r : Sums) :
    (s.writeSums w r).crc32ss = s.crc32ss := rfl
@[simp] theorem State.writeSums_buf (s : State) (w : Window) (r : Sums) : (s.writeSums w r).buf = s.buf := rfl
@[simp] theorem State.writeSums_rsp (s : State) (w : Window) (r : Sums) : (s.writeSums w r).rsp = s.rsp := rfl
@[simp] theorem State.writeSums_program (s : State) (w : Window) (r : Sums) :
    (s.writeSums w r).program = s.program := rfl
@[simp] theorem State.writeSums_pc (s : State) (w : Window) (r : Sums) : (s.writeSums w r).pc = s.pc := rfl

/-! ### `State.arFrom` -/

@[simp] theorem State.arFrom_cfg (s : State) (fs : List Word) : (s.arFrom fs).cfg = s.cfg := rfl
@[simp] theorem State.arFrom_status (s : State) (fs : List Word) :
    (s.arFrom fs).status = { s.status with arValid := true } := rfl
@[simp] theorem State.arFrom_errinfo (s : State) (fs : List Word) : (s.arFrom fs).errinfo = s.errinfo := rfl
@[simp] theorem State.arFrom_pos (s : State) (fs : List Word) : (s.arFrom fs).pos = s.pos := rfl
@[simp] theorem State.arFrom_nsamp (s : State) (fs : List Word) : (s.arFrom fs).nsamp = s.nsamp := rfl
@[simp] theorem State.arFrom_nframes (s : State) (fs : List Word) : (s.arFrom fs).nframes = s.nframes := rfl
@[simp] theorem State.arFrom_sumFrom (s : State) (fs : List Word) :
    (s.arFrom fs).sumFrom = BitVec.ofInt 32 (windowOf s.pos s.nframes).sumFrom := rfl
@[simp] theorem State.arFrom_sumTo (s : State) (fs : List Word) :
    (s.arFrom fs).sumTo = BitVec.ofInt 32 (windowOf s.pos s.nframes).sumTo := rfl
@[simp] theorem State.arFrom_csumLo (s : State) (fs : List Word) :
    (s.arFrom fs).csumLo = (arPass (windowOf s.pos s.nframes) 1 ⟨0, 0⟩ fs).lo := rfl
@[simp] theorem State.arFrom_csumHi (s : State) (fs : List Word) :
    (s.arFrom fs).csumHi = (arPass (windowOf s.pos s.nframes) 1 ⟨0, 0⟩ fs).hi := rfl
@[simp] theorem State.arFrom_arV1 (s : State) (fs : List Word) :
    (s.arFrom fs).arV1 = (arPass (windowOf s.pos s.nframes) 1 ⟨0, 0⟩ fs).lo := rfl
@[simp] theorem State.arFrom_arV2 (s : State) (fs : List Word) :
    (s.arFrom fs).arV2 = (arPass (windowOf s.pos s.nframes) 1 ⟨0, 0⟩ fs).lo +
      (arPass (windowOf s.pos s.nframes) 1 ⟨0, 0⟩ fs).hi := rfl
@[simp] theorem State.arFrom_crc32 (s : State) (fs : List Word) : (s.arFrom fs).crc32 = s.crc32 := rfl
@[simp] theorem State.arFrom_crc32ss (s : State) (fs : List Word) : (s.arFrom fs).crc32ss = s.crc32ss := rfl
@[simp] theorem State.arFrom_buf (s : State) (fs : List Word) : (s.arFrom fs).buf = s.buf := rfl
@[simp] theorem State.arFrom_rsp (s : State) (fs : List Word) : (s.arFrom fs).rsp = s.rsp := rfl
@[simp] theorem State.arFrom_program (s : State) (fs : List Word) : (s.arFrom fs).program = s.program := rfl
@[simp] theorem State.arFrom_pc (s : State) (fs : List Word) : (s.arFrom fs).pc = s.pc := rfl

/-! ### `State.writeCrc` -/

@[simp] theorem State.writeCrc_cfg (s : State) (v : Word) : (s.writeCrc v).cfg = s.cfg := rfl
@[simp] theorem State.writeCrc_status (s : State) (v : Word) :
    (s.writeCrc v).status = { s.status with crcValid := true } := rfl
@[simp] theorem State.writeCrc_errinfo (s : State) (v : Word) : (s.writeCrc v).errinfo = s.errinfo := rfl
@[simp] theorem State.writeCrc_pos (s : State) (v : Word) : (s.writeCrc v).pos = s.pos := rfl
@[simp] theorem State.writeCrc_nsamp (s : State) (v : Word) : (s.writeCrc v).nsamp = s.nsamp := rfl
@[simp] theorem State.writeCrc_nframes (s : State) (v : Word) : (s.writeCrc v).nframes = s.nframes := rfl
@[simp] theorem State.writeCrc_sumFrom (s : State) (v : Word) : (s.writeCrc v).sumFrom = s.sumFrom := rfl
@[simp] theorem State.writeCrc_sumTo (s : State) (v : Word) : (s.writeCrc v).sumTo = s.sumTo := rfl
@[simp] theorem State.writeCrc_csumLo (s : State) (v : Word) : (s.writeCrc v).csumLo = s.csumLo := rfl
@[simp] theorem State.writeCrc_csumHi (s : State) (v : Word) : (s.writeCrc v).csumHi = s.csumHi := rfl
@[simp] theorem State.writeCrc_arV1 (s : State) (v : Word) : (s.writeCrc v).arV1 = s.arV1 := rfl
@[simp] theorem State.writeCrc_arV2 (s : State) (v : Word) : (s.writeCrc v).arV2 = s.arV2 := rfl
@[simp] theorem State.writeCrc_crc32 (s : State) (v : Word) : (s.writeCrc v).crc32 = v := rfl
@[simp] theorem State.writeCrc_crc32ss (s : State) (v : Word) : (s.writeCrc v).crc32ss = s.crc32ss := rfl
@[simp] theorem State.writeCrc_buf (s : State) (v : Word) : (s.writeCrc v).buf = s.buf := rfl
@[simp] theorem State.writeCrc_rsp (s : State) (v : Word) : (s.writeCrc v).rsp = s.rsp := rfl
@[simp] theorem State.writeCrc_program (s : State) (v : Word) : (s.writeCrc v).program = s.program := rfl
@[simp] theorem State.writeCrc_pc (s : State) (v : Word) : (s.writeCrc v).pc = s.pc := rfl

/-! ### `State.writeStripped` -/

@[simp] theorem State.writeStripped_cfg (s : State) (kept : List Sample) : (s.writeStripped kept).cfg = s.cfg := rfl
@[simp] theorem State.writeStripped_status (s : State) (kept : List Sample) :
    (s.writeStripped kept).status = { s.status with ssValid := true, phase := .stripped } := rfl
@[simp] theorem State.writeStripped_errinfo (s : State) (kept : List Sample) :
    (s.writeStripped kept).errinfo = s.errinfo := rfl
@[simp] theorem State.writeStripped_pos (s : State) (kept : List Sample) : (s.writeStripped kept).pos = s.pos := rfl
@[simp] theorem State.writeStripped_nsamp (s : State) (kept : List Sample) :
    (s.writeStripped kept).nsamp = BitVec.ofNat 32 kept.length := rfl
@[simp] theorem State.writeStripped_nframes (s : State) (kept : List Sample) :
    (s.writeStripped kept).nframes = s.nframes := rfl
@[simp] theorem State.writeStripped_sumFrom (s : State) (kept : List Sample) :
    (s.writeStripped kept).sumFrom = s.sumFrom := rfl
@[simp] theorem State.writeStripped_sumTo (s : State) (kept : List Sample) :
    (s.writeStripped kept).sumTo = s.sumTo := rfl
@[simp] theorem State.writeStripped_csumLo (s : State) (kept : List Sample) :
    (s.writeStripped kept).csumLo = s.csumLo := rfl
@[simp] theorem State.writeStripped_csumHi (s : State) (kept : List Sample) :
    (s.writeStripped kept).csumHi = s.csumHi := rfl
@[simp] theorem State.writeStripped_arV1 (s : State) (kept : List Sample) :
    (s.writeStripped kept).arV1 = s.arV1 := rfl
@[simp] theorem State.writeStripped_arV2 (s : State) (kept : List Sample) :
    (s.writeStripped kept).arV2 = s.arV2 := rfl
@[simp] theorem State.writeStripped_crc32 (s : State) (kept : List Sample) :
    (s.writeStripped kept).crc32 = s.crc32 := rfl
@[simp] theorem State.writeStripped_crc32ss (s : State) (kept : List Sample) :
    (s.writeStripped kept).crc32ss = crc32Of (bytesOf kept) := rfl
@[simp] theorem State.writeStripped_buf (s : State) (kept : List Sample) :
    (s.writeStripped kept).buf = Memory.ofBytes 0 (bytesOf kept) := rfl
@[simp] theorem State.writeStripped_rsp (s : State) (kept : List Sample) : (s.writeStripped kept).rsp = s.rsp := rfl
@[simp] theorem State.writeStripped_program (s : State) (kept : List Sample) :
    (s.writeStripped kept).program = s.program := rfl
@[simp] theorem State.writeStripped_pc (s : State) (kept : List Sample) : (s.writeStripped kept).pc = s.pc := rfl

/-! ### `State.withFetchWord` -/

@[simp] theorem State.withFetchWord_cfg (s : State) (nbits w : Nat) : (s.withFetchWord nbits w).cfg = s.cfg := rfl
@[simp] theorem State.withFetchWord_status (s : State) (nbits w : Nat) :
    (s.withFetchWord nbits w).status = s.status := rfl
@[simp] theorem State.withFetchWord_errinfo (s : State) (nbits w : Nat) :
    (s.withFetchWord nbits w).errinfo = s.errinfo := rfl
@[simp] theorem State.withFetchWord_pos (s : State) (nbits w : Nat) : (s.withFetchWord nbits w).pos = s.pos := rfl
@[simp] theorem State.withFetchWord_nsamp (s : State) (nbits w : Nat) :
    (s.withFetchWord nbits w).nsamp = s.nsamp := rfl
@[simp] theorem State.withFetchWord_nframes (s : State) (nbits w : Nat) :
    (s.withFetchWord nbits w).nframes = s.nframes := rfl
@[simp] theorem State.withFetchWord_sumFrom (s : State) (nbits w : Nat) :
    (s.withFetchWord nbits w).sumFrom = s.sumFrom := rfl
@[simp] theorem State.withFetchWord_sumTo (s : State) (nbits w : Nat) :
    (s.withFetchWord nbits w).sumTo = s.sumTo := rfl
@[simp] theorem State.withFetchWord_csumLo (s : State) (nbits w : Nat) :
    (s.withFetchWord nbits w).csumLo = s.csumLo := rfl
@[simp] theorem State.withFetchWord_csumHi (s : State) (nbits w : Nat) :
    (s.withFetchWord nbits w).csumHi = s.csumHi := rfl
@[simp] theorem State.withFetchWord_arV1 (s : State) (nbits w : Nat) : (s.withFetchWord nbits w).arV1 = s.arV1 := rfl
@[simp] theorem State.withFetchWord_arV2 (s : State) (nbits w : Nat) : (s.withFetchWord nbits w).arV2 = s.arV2 := rfl
@[simp] theorem State.withFetchWord_crc32 (s : State) (nbits w : Nat) :
    (s.withFetchWord nbits w).crc32 = s.crc32 := rfl
@[simp] theorem State.withFetchWord_crc32ss (s : State) (nbits w : Nat) :
    (s.withFetchWord nbits w).crc32ss = s.crc32ss := rfl
@[simp] theorem State.withFetchWord_buf (s : State) (nbits w : Nat) : (s.withFetchWord nbits w).buf = s.buf := rfl
@[simp] theorem State.withFetchWord_rsp (s : State) (nbits w : Nat) : (s.withFetchWord nbits w).rsp = s.rsp := rfl
@[simp] theorem State.withFetchWord_program (s : State) (nbits w : Nat) :
    (s.withFetchWord nbits w).program = placeCommand (commandWord nbits w) s.program s.pc := rfl
@[simp] theorem State.withFetchWord_pc (s : State) (nbits w : Nat) : (s.withFetchWord nbits w).pc = s.pc := rfl

end Sys2Proof.Machine
end

