-- ==== Sys2Proof/Laws/Memory.lean ====
section
/-! SUPPORT. The laws of the buffer's bytes: every operation keeps the rising form, a read after a write, and what the
block reads of a buffer that holds exactly the bytes from an address up. -/

namespace Sys2Proof.Machine

theorem Memory.wf_tail {c : Host.Cell} {t : Memory} (h : Memory.wf (c :: t)) : Memory.wf t :=
  (List.pairwise_cons.mp h).2

/-- Every address of a written memory is the written one or was listed. -/
theorem Memory.mem_writeByte {m : Memory} {a : Nat} {v : Byte} {c : Host.Cell} (h : c ∈ m.writeByte a v) :
    c = (a, v) ∨ c ∈ m := by
  induction m with
  | nil => simpa [Memory.writeByte] using h
  | cons x t ih =>
    obtain ⟨k, y⟩ := x
    simp only [Memory.writeByte] at h
    split at h
    · simpa using h
    · split at h
      · rcases List.mem_cons.mp h with h | h
        · exact .inl h
        · exact .inr (List.mem_cons_of_mem _ h)
      · rcases List.mem_cons.mp h with h | h
        · exact .inr (h ▸ List.mem_cons_self)
        · rcases ih h with h | h
          · exact .inl h
          · exact .inr (List.mem_cons_of_mem _ h)

theorem Memory.writeByte_wf {m : Memory} (h : m.wf) (a : Nat) (v : Byte) : (m.writeByte a v).wf := by
  induction m with
  | nil => simp [Memory.writeByte]
  | cons x t ih =>
    obtain ⟨k, y⟩ := x
    obtain ⟨hk, ht⟩ := List.pairwise_cons.mp h
    simp only [Memory.writeByte]
    split
    case isTrue hak =>
      refine List.pairwise_cons.mpr ⟨fun c hc => ?_, h⟩
      rcases List.mem_cons.mp hc with rfl | hc
      · exact hak
      · exact Nat.lt_trans hak (hk c hc)
    case isFalse hak =>
      split
      case isTrue heq => exact List.pairwise_cons.mpr ⟨fun c hc => heq ▸ hk c hc, ht⟩
      case isFalse hne =>
        refine List.pairwise_cons.mpr ⟨fun c hc => ?_, ih ht⟩
        rcases Memory.mem_writeByte hc with rfl | hc
        · show k < a
          omega
        · exact hk c hc

theorem Memory.writeBytes_wf {m : Memory} (h : m.wf) (a : Nat) (bs : List Byte) : (m.writeBytes a bs).wf := by
  induction bs generalizing m a with
  | nil => exact h
  | cons b bs ih => exact ih (Memory.writeByte_wf h a b) (a + 1)

theorem Memory.readByte_writeByte_same (m : Memory) (a : Nat) (v : Byte) : (m.writeByte a v).readByte a = some v := by
  induction m with
  | nil => simp [Memory.writeByte, Memory.readByte]
  | cons x t ih =>
    obtain ⟨k, y⟩ := x
    simp only [Memory.writeByte]
    split
    · simp [Memory.readByte]
    · split
      · simp [Memory.readByte]
      · next hne => simp [Memory.readByte, Ne.symm hne, ih]

theorem Memory.readByte_writeByte_ne {m : Memory} {a b : Nat} (v : Byte) (hab : b ≠ a) :
    (m.writeByte a v).readByte b = m.readByte b := by
  induction m with
  | nil => simp [Memory.writeByte, Memory.readByte, Ne.symm hab]
  | cons x t ih =>
    obtain ⟨k, y⟩ := x
    simp only [Memory.writeByte]
    split
    · simp [Memory.readByte, Ne.symm hab]
    · split
      · next heq => subst heq; simp [Memory.readByte, Ne.symm hab]
      · simp [Memory.readByte, ih]

theorem Memory.map_fst_ofBytes (a : Nat) (bs : List Byte) :
    (Memory.ofBytes a bs).map Prod.fst = List.range' a bs.length := by
  induction bs generalizing a with
  | nil => rfl
  | cons b bs ih => simp [Memory.ofBytes, ih, List.range'_succ]

theorem Memory.map_snd_ofBytes (a : Nat) (bs : List Byte) : (Memory.ofBytes a bs).map Prod.snd = bs := by
  induction bs generalizing a with
  | nil => rfl
  | cons b bs ih => simp [Memory.ofBytes, ih]

theorem Memory.wf_of_map_fst {m : Memory} {a n : Nat} (h : m.map Prod.fst = List.range' a n) : m.wf := by
  have hp : (m.map Prod.fst).Pairwise (· < ·) := h ▸ List.pairwise_lt_range'
  exact List.pairwise_map.mp hp

theorem Memory.ofBytes_wf (a : Nat) (bs : List Byte) : (Memory.ofBytes a bs).wf :=
  Memory.wf_of_map_fst (Memory.map_fst_ofBytes a bs)

/-- A buffer that lists exactly the addresses from `a` up is the buffer of its own bytes. -/
theorem Memory.eq_ofBytes {m : Memory} {a n : Nat} (h : m.map Prod.fst = List.range' a n) :
    m = Memory.ofBytes a (m.map Prod.snd) := by
  induction m generalizing a n with
  | nil => rfl
  | cons x t ih =>
    obtain ⟨k, y⟩ := x
    cases n with
    | zero => simp at h
    | succ n =>
      rw [List.range'_succ] at h
      obtain ⟨rfl, ht⟩ := List.cons.inj h
      simp only [List.map_cons, Memory.ofBytes]
      rw [← ih ht]

/-- The walk reads a prefix of the bytes of a buffer that lists exactly the addresses from `a` up. -/
theorem Memory.readBytes_ofBytes (a n : Nat) (bs : List Byte) (hn : n ≤ bs.length) :
    (Memory.ofBytes a bs).readBytes a n = some (bs.take n) := by
  induction bs generalizing a n with
  | nil => obtain rfl : n = 0 := by simpa using hn
           rfl
  | cons b bs ih =>
    cases n with
    | zero => rfl
    | succ n => simp [Memory.ofBytes, Memory.readBytes, ih (a + 1) n (by simpa using hn)]

/-- Below the first listed address the walk starts at the listed one. -/
theorem Memory.readByte_none_of_lt {m : Memory} {a : Nat} (h : ∀ c ∈ m, a < c.1) : m.readByte a = none := by
  induction m with
  | nil => rfl
  | cons x t ih =>
    obtain ⟨k, y⟩ := x
    have hk : a < k := h (k, y) List.mem_cons_self
    simp only [Memory.readByte, if_neg (Nat.ne_of_gt hk)]
    exact ih fun c hc => h c (List.mem_cons_of_mem _ hc)

/-- What one walk reads is what the byte reads read, address by address. -/
theorem Memory.readBytes_eq_readByte {m : Memory} (h : m.wf) {a n : Nat} {bs : List Byte}
    (hr : m.readBytes a n = some bs) : bs.length = n ∧ ∀ k < n, m.readByte (a + k) = bs[k]? := by
  induction m generalizing a n bs with
  | nil =>
    cases n with
    | zero => simp only [Memory.readBytes, Option.some.injEq] at hr; subst hr; simp
    | succ n => simp [Memory.readBytes] at hr
  | cons x t ih =>
    obtain ⟨k, y⟩ := x
    obtain ⟨hk, ht⟩ := List.pairwise_cons.mp h
    cases n with
    | zero => simp only [Memory.readBytes, Option.some.injEq] at hr; subst hr; simp
    | succ n =>
      simp only [Memory.readBytes] at hr
      split at hr
      · next heq =>
        subst heq
        obtain ⟨cs, hcs, rfl⟩ := Option.map_eq_some_iff.mp hr
        obtain ⟨hlen, hget⟩ := ih ht hcs
        refine ⟨by simp [hlen], fun j hj => ?_⟩
        cases j with
        | zero => simp [Memory.readByte]
        | succ j =>
          have := hget j (by omega)
          rw [show k + (j + 1) = k + 1 + j by omega, Memory.readByte, if_neg (by omega), this]
          simp
      · split at hr
        · next hlt =>
          obtain ⟨hlen, hget⟩ := ih ht hr
          refine ⟨hlen, fun j hj => ?_⟩
          rw [Memory.readByte, if_neg (by omega)]
          exact hget j hj
        · exact absurd hr (by simp)

/-- A byte of a buffer that lists exactly the addresses from `a` up. -/
theorem Memory.readByte_ofBytes (a k : Nat) (bs : List Byte) : (Memory.ofBytes a bs).readByte (a + k) = bs[k]? := by
  induction bs generalizing a k with
  | nil => rfl
  | cons b bs ih =>
    cases k with
    | zero => simp [Memory.ofBytes, Memory.readByte]
    | succ k =>
      rw [Memory.ofBytes, Memory.readByte, if_neg (by omega), show a + (k + 1) = a + 1 + k by omega, ih]
      simp

/-- Writing past the last listed address appends. -/
theorem Memory.writeByte_append {m : Memory} {a : Nat} (v : Byte) (h : ∀ c ∈ m, c.1 < a) :
    m.writeByte a v = m ++ [(a, v)] := by
  induction m with
  | nil => rfl
  | cons x t ih =>
    obtain ⟨k, y⟩ := x
    have hk : k < a := h (k, y) List.mem_cons_self
    rw [Memory.writeByte, if_neg (by omega), if_neg (by omega), ih fun c hc => h c (List.mem_cons_of_mem _ hc)]
    rfl

theorem Memory.lt_of_mem_range {m : Memory} {n : Nat} (h : m.map Prod.fst = List.range n) : ∀ c ∈ m, c.1 < n := by
  intro c hc
  have : c.1 ∈ m.map Prod.fst := List.mem_map_of_mem hc
  simpa [h] using this

/-- A sample written at the first unused index appends its two bytes. -/
theorem Memory.writeBytes_sample {m : Memory} {n : Nat} (x : Sample) (h : m.map Prod.fst = List.range (2 * n)) :
    m.writeBytes (2 * n) (sampleBytes x) =
      m ++ [(2 * n, x.extractLsb' 0 8), (2 * n + 1, x.extractLsb' 8 8)] := by
  have hm := Memory.lt_of_mem_range h
  simp only [sampleBytes, Memory.writeBytes]
  rw [Memory.writeByte_append _ hm, Memory.writeByte_append]
  · simp
  · intro c hc
    rcases List.mem_append.mp hc with hc | hc
    · exact Nat.lt_succ_of_lt (hm c hc)
    · simp only [List.mem_singleton] at hc
      subst hc
      exact Nat.lt_succ_self _

/-! ### Bytes, samples and frames -/

theorem bytesOf_length (xs : List Sample) : (bytesOf xs).length = 2 * xs.length := by
  induction xs with
  | nil => rfl
  | cons x xs ih => simp only [bytesOf, sampleBytes, List.length_append, List.length_cons, List.length_nil, ih]; omega

theorem bytesOf_append (xs ys : List Sample) : bytesOf (xs ++ ys) = bytesOf xs ++ bytesOf ys := by
  induction xs with
  | nil => rfl
  | cons x xs ih => simp [bytesOf, ih]

theorem littleEndian_sampleBytes (x : Sample) :
    BitVec.ofNat 16 (littleEndian [x.extractLsb' 0 8, x.extractLsb' 8 8]) = x := by
  apply BitVec.eq_of_toNat_eq
  have := x.isLt
  simp [littleEndian, Nat.shiftRight_eq_div_pow]
  omega

/-- The samples read back from the bytes of samples. -/
@[simp] theorem samplesOf_bytesOf (xs : List Sample) : samplesOf (bytesOf xs) = xs := by
  induction xs with
  | nil => rfl
  | cons x xs ih =>
    have hx := littleEndian_sampleBytes x
    simp only [bytesOf, sampleBytes, List.cons_append, List.nil_append, samplesOf, ih, hx]

theorem sampleBytes_littleEndian (b0 b1 : Byte) :
    sampleBytes (BitVec.ofNat 16 (littleEndian [b0, b1])) = [b0, b1] := by
  have h0 := b0.isLt
  have h1 := b1.isLt
  simp only [sampleBytes, littleEndian, List.cons.injEq, and_true]
  constructor <;> apply BitVec.eq_of_toNat_eq <;> simp [Nat.shiftRight_eq_div_pow] <;> omega

/-- The bytes of the samples read from an even number of bytes. -/
theorem bytesOf_samplesOf : ∀ (bs : List Byte) (n : Nat), bs.length = 2 * n → bytesOf (samplesOf bs) = bs
  | [], _, _ => rfl
  | [_], n, h => by simp at h; omega
  | b0 :: b1 :: t, n, h => by
    have ht : t.length = 2 * (n - 1) := by simp at h; omega
    simp only [samplesOf, bytesOf, sampleBytes_littleEndian, bytesOf_samplesOf t (n - 1) ht]
    rfl

theorem samplesOf_length : ∀ (bs : List Byte) (n : Nat), bs.length = 2 * n → (samplesOf bs).length = n
  | [], n, h => by simp at h; simp [samplesOf, h]
  | [_], n, h => by simp at h; omega
  | b0 :: b1 :: t, n, h => by
    have ht : t.length = 2 * (n - 1) := by simp at h; omega
    simp only [samplesOf, List.length_cons, samplesOf_length t (n - 1) ht]
    simp at h
    omega

theorem framesOf_length : ∀ (bs : List Byte) (n : Nat), bs.length = 4 * n → (framesOf bs).length = n
  | [], n, h => by simp at h; simp [framesOf, h]
  | [_], n, h => by simp at h; omega
  | [_, _], n, h => by simp at h; omega
  | [_, _, _], n, h => by simp at h; omega
  | b0 :: b1 :: b2 :: b3 :: t, n, h => by
    have ht : t.length = 4 * (n - 1) := by simp at h; omega
    simp only [framesOf, List.length_cons, framesOf_length t (n - 1) ht]
    simp at h
    omega

/-- Frame `j` of a byte sequence is its four bytes from `4j` on, little-endian (20_memory R43). -/
theorem framesOf_getElem : ∀ (bs : List Byte) (j : Nat), 4 * j + 4 ≤ bs.length →
    (framesOf bs)[j]? = some (BitVec.ofNat 32 (littleEndian ((bs.drop (4 * j)).take 4)))
  | [], j, h => by simp at h
  | [_], j, h => by simp at h
  | [_, _], j, h => by simp at h
  | [_, _, _], j, h => by simp at h
  | b0 :: b1 :: b2 :: b3 :: t, 0, _ => by simp [framesOf]
  | b0 :: b1 :: b2 :: b3 :: t, j + 1, h => by
    have ht : 4 * j + 4 ≤ t.length := by simp at h; omega
    rw [framesOf, List.getElem?_cons_succ, framesOf_getElem t j ht, show 4 * (j + 1) = 4 * j + 1 + 1 + 1 + 1 by omega]
    simp only [List.drop_succ_cons]

theorem strip_length_le (xs : List Sample) : (strip xs).length ≤ xs.length := by
  induction xs with
  | nil => exact Nat.le_refl _
  | cons x xs ih =>
    simp only [strip]
    split
    · exact Nat.le_succ_of_le ih
    · exact Nat.succ_le_succ ih

/-- `Strip` is the filter that keeps what is not zero (42_crc32 R103). -/
theorem strip_eq_filter (xs : List Sample) : strip xs = xs.filter (fun x => x ≠ 0) := by
  induction xs with
  | nil => rfl
  | cons x xs ih =>
    simp only [strip, List.filter_cons]
    split <;> simp_all

end Sys2Proof.Machine
end

