-- ==== Sys2Proof/Laws/Ops.lean ====
section
/-! SUPPORT. One lemma per shared operation that says everything it can do; proofs about commands cite these instead of
unfolding the operations. -/

namespace Sys2Proof.Machine

/-! ### The checks -/

theorem unlessFault_of_fault {s : State} (h : s.status.phase = .fault) (r : Result) :
    unlessFault s r = .next (s.respond 0) := if_pos h

theorem unlessFault_of_ne {s : State} (h : s.status.phase ≠ .fault) (r : Result) : unlessFault s r = r := if_neg h

theorem unlessFault_next {s t : State} {r : Result} (h : unlessFault s r = .next t) :
    (s.status.phase = .fault ∧ t = s.respond 0) ∨ (s.status.phase ≠ .fault ∧ r = .next t) := by
  unfold unlessFault at h
  split at h
  · next hp => exact .inl ⟨hp, by injection h with h; exact h.symm⟩
  · next hp => exact .inr ⟨hp, h⟩

theorem raise_next {e : ErrorKind} {info : Word} {s t : State} (h : raise e info s = .next t) :
    t = (s.enterFault e info).respond 0 := by
  injection h with h
  exact h.symm

theorem requirePhase_of_eq {p : Phase} {s : State} (h : s.status.phase = p) (cmd : Word) (r : Result) :
    requirePhase p cmd s r = r := if_pos h

theorem requirePhase_of_ne {p : Phase} {s : State} (h : s.status.phase ≠ p) (cmd : Word) (r : Result) :
    requirePhase p cmd s r = raise .sequence cmd s := if_neg h

theorem requirePhase_next {p : Phase} {cmd : Word} {s t : State} {r : Result}
    (h : requirePhase p cmd s r = .next t) :
    (s.status.phase = p ∧ r = .next t) ∨ t = (s.enterFault .sequence cmd).respond 0 := by
  unfold requirePhase at h
  split at h
  · next hp => exact .inl ⟨hp, h⟩
  · exact .inr (raise_next h)

theorem requireFlag_of_true {b : Bool} (h : b = true) (cmd : Word) (s : State) (r : Result) :
    requireFlag b cmd s r = r := if_pos h

theorem requireFlag_of_false {b : Bool} (h : b = false) (cmd : Word) (s : State) (r : Result) :
    requireFlag b cmd s r = raise .sequence cmd s := by simp [requireFlag, h]

theorem requireFlag_next {b : Bool} {cmd : Word} {s t : State} {r : Result}
    (h : requireFlag b cmd s r = .next t) :
    (b = true ∧ r = .next t) ∨ t = (s.enterFault .sequence cmd).respond 0 := by
  unfold requireFlag at h
  split at h
  · next hp => exact .inl ⟨hp, h⟩
  · exact .inr (raise_next h)

theorem finish_next {r : Except Fault State} {t : State} (h : finish r = .next t) :
    ∃ u, r = .ok u ∧ t = u.respond 0 := by
  cases r with
  | ok u => exact ⟨u, rfl, by injection h with h; exact h.symm⟩
  | error f => cases h

theorem execIllegal_next {cmd : Word} {s t : State} (h : execIllegal cmd s = .next t) :
    (s.status.phase = .fault ∧ t = s.respond 0) ∨
      (s.status.phase ≠ .fault ∧ t = (s.enterFault .illegalCommand cmd).respond 0) := by
  rcases unlessFault_next h with h | ⟨hp, h⟩
  · exact .inl h
  · exact .inr ⟨hp, raise_next h⟩

/-! ### The buffer -/

theorem State.BufferOk.map_fst {s : State} (h : s.BufferOk) : s.buf.map Prod.fst = List.range' 0 (2 * s.nsamp.toNat) := by
  rw [← List.range_eq_range']
  exact h

theorem State.BufferOk.wf {s : State} (h : s.BufferOk) : s.buf.wf := Memory.wf_of_map_fst h.map_fst

theorem State.BufferOk.bytes_length {s : State} (h : s.BufferOk) : s.bytes.length = 2 * s.nsamp.toNat := by
  have := congrArg List.length h.map_fst
  simpa [State.bytes] using this

theorem State.BufferOk.buf_eq {s : State} (h : s.BufferOk) : s.buf = Memory.ofBytes 0 s.bytes :=
  Memory.eq_ofBytes h.map_fst

/-- A read inside the bytes that hold values answers them. -/
theorem State.loadBytes_ok {s : State} (h : s.BufferOk) (hcap : s.nsamp.toNat ≤ s.cfg.cap.toNat) {n : Nat}
    (hn : n ≤ 2 * s.nsamp.toNat) : s.loadBytes 0 n = .ok (s.bytes.take n) := by
  have hr : s.buf.readBytes 0 n = some (s.bytes.take n) := by
    have := Memory.readBytes_ofBytes 0 n s.bytes (by rw [h.bytes_length]; exact hn)
    rwa [← h.buf_eq] at this
  unfold State.loadBytes
  rw [if_neg (by omega), hr]

theorem State.loadBytes_all {s : State} (h : s.BufferOk) (hcap : s.nsamp.toNat ≤ s.cfg.cap.toNat) :
    s.loadBytes 0 (2 * s.nsamp.toNat) = .ok s.bytes := by
  rw [State.loadBytes_ok h hcap (Nat.le_refl _), ← h.bytes_length, List.take_length]

/-- A sealed buffer gives the AccurateRip engine all its bytes. -/
theorem State.loadBytes_frames {s : State} (h : s.BufferOk) (hcap : s.nsamp.toNat ≤ s.cfg.cap.toNat)
    (hn : s.nsamp.toNat = 2 * s.nframes.toNat) : s.loadBytes 0 (4 * s.nframes.toNat) = .ok s.bytes := by
  rw [show 4 * s.nframes.toNat = 2 * s.nsamp.toNat by omega]
  exact State.loadBytes_all h hcap

/-- What the byte at `k` of a good buffer reads as. -/
theorem State.BufferOk.readByte {s : State} (h : s.BufferOk) (k : Nat) : s.buf.readByte k = s.bytes[k]? := by
  have := Memory.readByte_ofBytes 0 k s.bytes
  rwa [← h.buf_eq, Nat.zero_add] at this

theorem State.storeSample_ok {s t : State} {i : Nat} {x : Sample} (h : s.storeSample i x = .ok t) :
    2 * i + 2 ≤ 2 * s.cfg.cap.toNat ∧ t = { s with buf := s.buf.writeBytes (2 * i) (sampleBytes x) } := by
  unfold State.storeSample at h
  split at h
  · cases h
  · next hn => exact ⟨by omega, by injection h with h; exact h.symm⟩

theorem State.storeSample_of_le {s : State} {i : Nat} (x : Sample) (h : i < s.cfg.cap.toNat) :
    s.storeSample i x = .ok { s with buf := s.buf.writeBytes (2 * i) (sampleBytes x) } := by
  unfold State.storeSample
  rw [if_neg (by omega)]

/-! ### The engines -/

theorem arEngine_ok {s t : State} (h : arEngine s = .ok t) :
    ∃ bs, s.loadBytes 0 (4 * s.nframes.toNat) = .ok bs ∧ t = s.arFrom (framesOf bs) := by
  unfold arEngine at h
  cases hl : s.loadBytes 0 (4 * s.nframes.toNat) with
  | error f => simp [hl, Except.map] at h
  | ok bs => exact ⟨bs, rfl, by simpa [hl, Except.map] using h.symm⟩

theorem crcEngine_ok {s t : State} (h : crcEngine s = .ok t) :
    ∃ bs, s.loadBytes 0 (2 * s.nsamp.toNat) = .ok bs ∧ t = s.writeCrc (crc32Of bs) := by
  unfold crcEngine at h
  cases hl : s.loadBytes 0 (2 * s.nsamp.toNat) with
  | error f => simp [hl, Except.map] at h
  | ok bs => exact ⟨bs, rfl, by simpa [hl, Except.map] using h.symm⟩

theorem stripEngine_ok {s t : State} (h : stripEngine s = .ok t) :
    ∃ bs, s.loadBytes 0 (2 * s.nsamp.toNat) = .ok bs ∧ t = s.writeStripped (strip (samplesOf bs)) := by
  unfold stripEngine at h
  cases hl : s.loadBytes 0 (2 * s.nsamp.toNat) with
  | error f => simp [hl, Except.map] at h
  | ok bs => exact ⟨bs, rfl, by simpa [hl, Except.map] using h.symm⟩

/-- The two engines of `ARCRC` read the same buffer, one after the other. -/
theorem bothEngines_ok {s t : State} (h : bothEngines s = .ok t) :
    ∃ bs cs, s.loadBytes 0 (4 * s.nframes.toNat) = .ok bs ∧ s.loadBytes 0 (2 * s.nsamp.toNat) = .ok cs ∧
      t = (s.arFrom (framesOf bs)).writeCrc (crc32Of cs) := by
  unfold bothEngines at h
  split at h
  · next u hu =>
    obtain ⟨bs, hbs, rfl⟩ := arEngine_ok hu
    obtain ⟨cs, hcs, rfl⟩ := crcEngine_ok h
    exact ⟨bs, cs, hbs, hcs, rfl⟩
  · cases h

theorem arEngine_of_load {s : State} {bs : List Byte} (h : s.loadBytes 0 (4 * s.nframes.toNat) = .ok bs) :
    arEngine s = .ok (s.arFrom (framesOf bs)) := by simp [arEngine, h, Except.map]

theorem crcEngine_of_load {s : State} {bs : List Byte} (h : s.loadBytes 0 (2 * s.nsamp.toNat) = .ok bs) :
    crcEngine s = .ok (s.writeCrc (crc32Of bs)) := by simp [crcEngine, h, Except.map]

theorem stripEngine_of_load {s : State} {bs : List Byte} (h : s.loadBytes 0 (2 * s.nsamp.toNat) = .ok bs) :
    stripEngine s = .ok (s.writeStripped (strip (samplesOf bs))) := by simp [stripEngine, h, Except.map]

theorem bothEngines_of_load {s : State} {bs cs : List Byte} (hb : s.loadBytes 0 (4 * s.nframes.toNat) = .ok bs)
    (hc : s.loadBytes 0 (2 * s.nsamp.toNat) = .ok cs) :
    bothEngines s = .ok ((s.arFrom (framesOf bs)).writeCrc (crc32Of cs)) := by
  unfold bothEngines
  rw [arEngine_of_load hb]
  exact crcEngine_of_load hc

/-! ### What a command can do

Each says everything the command can answer as a next state: ignored in FAULT, an error taken, or its effect. -/

/-- The two ends a command has besides its own effect. -/
abbrev IgnoredOrRaised (s t : State) : Prop :=
  (s.status.phase = .fault ∧ t = s.respond 0) ∨
    (s.status.phase ≠ .fault ∧ ∃ e info, t = (s.enterFault e info).respond 0 ∧
      e ≠ .unsupportedFormat ∧ e ≠ .ioError ∧ e ≠ .concurrencyFailure)

theorem execSetpos_next {track total : BitVec 8} {s t : State} (h : execSetpos track total s = .next t) :
    IgnoredOrRaised s t ∨ (s.status.phase = .load ∧ posInBounds track total = true ∧
      t = State.respond { s with pos := posWord track total, status := { s.status with posValid := true } } 0) := by
  rcases unlessFault_next h with h | ⟨hp, h⟩
  · exact .inl (.inl h)
  rcases requirePhase_next h with ⟨hl, h⟩ | h
  · split at h
    · next hb => exact .inr ⟨hl, hb, by injection h with h; exact h.symm⟩
    · exact .inl (.inr ⟨hp, _, _, raise_next h, by decide⟩)
  · exact .inl (.inr ⟨hp, _, _, h, by decide⟩)

theorem execPush_next {x : Sample} {s t : State} (h : execPush x s = .next t) :
    IgnoredOrRaised s t ∨ (s.status.phase = .load ∧ s.nsamp ≠ s.cfg.cap ∧
      2 * s.nsamp.toNat + 2 ≤ 2 * s.cfg.cap.toNat ∧
      t = State.respond { s with
            buf := s.buf.writeBytes (2 * s.nsamp.toNat) (sampleBytes x), nsamp := s.nsamp + 1 } 0) := by
  rcases unlessFault_next h with h | ⟨hp, h⟩
  · exact .inl (.inl h)
  rcases requirePhase_next h with ⟨hl, h⟩ | h
  · split at h
    · exact .inl (.inr ⟨hp, _, _, raise_next h, by decide⟩)
    · next hne =>
      obtain ⟨u, hu, rfl⟩ := finish_next h
      cases hs : s.storeSample s.nsamp.toNat x with
      | error f => simp [hs, Except.map] at hu
      | ok v =>
        obtain ⟨hle, rfl⟩ := State.storeSample_ok hs
        simp only [hs, Except.map, Except.ok.injEq] at hu
        exact .inr ⟨hl, hne, hle, by rw [← hu]⟩
  · exact .inl (.inr ⟨hp, _, _, h, by decide⟩)

theorem execSeal_next {s t : State} (h : execSeal s = .next t) :
    IgnoredOrRaised s t ∨ (s.status.phase = .load ∧ s.nsamp.getLsbD 0 = false ∧
      t = State.respond { s with nframes := s.nsamp / 2, status := { s.status with phase := .ready } } 0) := by
  rcases unlessFault_next h with h | ⟨hp, h⟩
  · exact .inl (.inl h)
  rcases requirePhase_next h with ⟨hl, h⟩ | h
  · split at h
    · exact .inl (.inr ⟨hp, _, _, raise_next h, by decide⟩)
    · next hb => exact .inr ⟨hl, by simpa using hb, by injection h with h; exact h.symm⟩
  · exact .inl (.inr ⟨hp, _, _, h, by decide⟩)

theorem execPeekf_next {j : BitVec 28} {s t : State} (h : execPeekf j s = .next t) :
    IgnoredOrRaised s t ∨ (s.status.phase = .ready ∧ j.toNat < s.nframes.toNat ∧
      ∃ w, s.frame j.toNat = .ok w ∧ t = s.respond w) := by
  rcases unlessFault_next h with h | ⟨hp, h⟩
  · exact .inl (.inl h)
  rcases requirePhase_next h with ⟨hl, h⟩ | h
  · split at h
    · exact .inl (.inr ⟨hp, _, _, raise_next h, by decide⟩)
    · next hj =>
      cases hf : s.frame j.toNat with
      | error f => rw [hf] at h; cases h
      | ok w =>
        rw [hf] at h
        exact .inr ⟨hl, by omega, w, rfl, by injection h with h; exact h.symm⟩
  · exact .inl (.inr ⟨hp, _, _, h, by decide⟩)

theorem execAr_next {s t : State} (h : execAr s = .next t) :
    IgnoredOrRaised s t ∨ (s.status.phase = .ready ∧ s.status.posValid = true ∧
      ∃ bs, s.loadBytes 0 (4 * s.nframes.toNat) = .ok bs ∧ t = (s.arFrom (framesOf bs)).respond 0) := by
  rcases unlessFault_next h with h | ⟨hp, h⟩
  · exact .inl (.inl h)
  rcases requirePhase_next h with ⟨hl, h⟩ | h
  · rcases requireFlag_next h with ⟨hf, h⟩ | h
    · obtain ⟨u, hu, rfl⟩ := finish_next h
      obtain ⟨bs, hbs, rfl⟩ := arEngine_ok hu
      exact .inr ⟨hl, hf, bs, hbs, rfl⟩
    · exact .inl (.inr ⟨hp, _, _, h, by decide⟩)
  · exact .inl (.inr ⟨hp, _, _, h, by decide⟩)

theorem execCrc_next {s t : State} (h : execCrc s = .next t) :
    IgnoredOrRaised s t ∨ (s.status.phase = .ready ∧
      ∃ bs, s.loadBytes 0 (2 * s.nsamp.toNat) = .ok bs ∧ t = (s.writeCrc (crc32Of bs)).respond 0) := by
  rcases unlessFault_next h with h | ⟨hp, h⟩
  · exact .inl (.inl h)
  rcases requirePhase_next h with ⟨hl, h⟩ | h
  · obtain ⟨u, hu, rfl⟩ := finish_next h
    obtain ⟨bs, hbs, rfl⟩ := crcEngine_ok hu
    exact .inr ⟨hl, bs, hbs, rfl⟩
  · exact .inl (.inr ⟨hp, _, _, h, by decide⟩)

theorem execArcrc_next {s t : State} (h : execArcrc s = .next t) :
    IgnoredOrRaised s t ∨ (s.status.phase = .ready ∧ s.status.posValid = true ∧
      ∃ bs cs, s.loadBytes 0 (4 * s.nframes.toNat) = .ok bs ∧ s.loadBytes 0 (2 * s.nsamp.toNat) = .ok cs ∧
        t = ((s.arFrom (framesOf bs)).writeCrc (crc32Of cs)).respond 0) := by
  rcases unlessFault_next h with h | ⟨hp, h⟩
  · exact .inl (.inl h)
  rcases requirePhase_next h with ⟨hl, h⟩ | h
  · rcases requireFlag_next h with ⟨hf, h⟩ | h
    · obtain ⟨u, hu, rfl⟩ := finish_next h
      obtain ⟨bs, cs, hbs, hcs, rfl⟩ := bothEngines_ok hu
      exact .inr ⟨hl, hf, bs, cs, hbs, hcs, rfl⟩
    · exact .inl (.inr ⟨hp, _, _, h, by decide⟩)
  · exact .inl (.inr ⟨hp, _, _, h, by decide⟩)

theorem execStrip_next {s t : State} (h : execStrip s = .next t) :
    IgnoredOrRaised s t ∨ (s.cfg.hasStrip = true ∧ s.status.phase = .ready ∧ s.status.crcValid = true ∧
      ∃ bs, s.loadBytes 0 (2 * s.nsamp.toNat) = .ok bs ∧
        t = (s.writeStripped (strip (samplesOf bs))).respond 0) := by
  rcases unlessFault_next h with h | ⟨hp, h⟩
  · exact .inl (.inl h)
  split at h
  · next hs =>
    rcases requirePhase_next h with ⟨hl, h⟩ | h
    · rcases requireFlag_next h with ⟨hf, h⟩ | h
      · obtain ⟨u, hu, rfl⟩ := finish_next h
        obtain ⟨bs, hbs, rfl⟩ := stripEngine_ok hu
        exact .inr ⟨hs, hl, hf, bs, hbs, rfl⟩
      · exact .inl (.inr ⟨hp, _, _, h, by decide⟩)
    · exact .inl (.inr ⟨hp, _, _, h, by decide⟩)
  · exact .inl (.inr ⟨hp, _, _, raise_next h, by decide⟩)

end Sys2Proof.Machine
end

