-- ==== Sys2Proof/Laws/Exec.lean ====
section
/-! SUPPORT. The encoder's and decoder's numbers, the position word, the samples of a buffer, what a sealed buffer gives
the engines, and the inversion of `exec` and of `step`: everything a next state can be. -/

namespace Sys2Proof.Machine

/-! ### Words and fields as numbers -/

theorem opField_toNat (w : Word) : (opField w).toNat = w.toNat / 2 ^ 28 := by
  have := w.isLt
  simp [opField, Nat.shiftRight_eq_div_pow]
  omega

theorem argField_toNat (w : Word) : (argField w).toNat = w.toNat % 2 ^ 28 := by simp [argField]

theorem pack_toNat {op arg : Nat} (hop : op < 16) (harg : arg < 2 ^ 28) : (pack op arg).toNat = op * 2 ^ 28 + arg := by
  simp [pack]
  omega

/-- A word is its two fields (30_encoding R60). -/
theorem word_toNat_fields (w : Word) : w.toNat = (opField w).toNat * 2 ^ 28 + (argField w).toNat := by
  rw [opField_toNat, argField_toNat]
  omega

@[simp] theorem Reg.ofNum_num (r : Reg) : Reg.ofNum r.num = r := by cases r <;> rfl

@[simp] theorem Reg.num_ofNum (n : BitVec 4) : (Reg.ofNum n).num = n := by
  revert n
  decide

theorem encode_setpos (track total : BitVec 8) :
    encode (.setpos track total) = BitVec.ofNat 32 (0x20000000 + total.toNat * 2 ^ 8 + track.toNat) := by
  simp only [encode, pack]
  congr 1
  omega

theorem encode_push (x : Sample) : encode (.push x) = BitVec.ofNat 32 (0x30000000 + x.toNat) := rfl

theorem encode_peekf (j : BitVec 28) : encode (.peekf j) = BitVec.ofNat 32 (0xA0000000 + j.toNat) := rfl

/-! ### The Track Position -/

@[simp] theorem posTrack_posWord (track total : BitVec 8) : posTrack (posWord track total) = track := by
  apply BitVec.eq_of_toNat_eq
  simp [posTrack, posWord]
  omega

@[simp] theorem posTotal_posWord (track total : BitVec 8) : posTotal (posWord track total) = total := by
  apply BitVec.eq_of_toNat_eq
  simp [posTotal, posWord, Nat.shiftRight_eq_div_pow]
  omega

theorem posInBounds_iff (track total : BitVec 8) :
    posInBounds track total = true ↔
      1 ≤ total.toNat ∧ total.toNat ≤ 99 ∧ 1 ≤ track.toNat ∧ track.toNat ≤ total.toNat := by
  unfold posInBounds Config.maxTracks
  simp only [Bool.and_eq_true, decide_eq_true_eq]
  tauto

/-- The window with its fields and constants written out (41_accuraterip R86). -/
theorem windowOf_eq (pos n : Word) :
    windowOf pos n =
      ⟨if pos.extractLsb' 0 8 = 1 then 2940 else 0,
       if pos.extractLsb' 0 8 = pos.extractLsb' 8 8 then (n.toNat : Int) - 2940 else n.toNat⟩ := by
  unfold windowOf isFirst isLast posTrack posTotal Config.skip
  simp

/-! ### The samples of a buffer -/

/-- Sample `i` of an even byte sequence lies at bytes 2`i` and 2`i` + 1 (20_memory R42). -/
theorem samplesOf_getElem_bytes : ∀ (bs : List Byte) (n i : Nat) (x : Sample), bs.length = 2 * n →
    (samplesOf bs)[i]? = some x →
    bs[2 * i]? = some (x.extractLsb' 0 8) ∧ bs[2 * i + 1]? = some (x.extractLsb' 8 8)
  | [], _, _, _, _, hx => by simp [samplesOf] at hx
  | [_], n, _, _, h, _ => by simp at h; omega
  | b0 :: b1 :: t, _, 0, x, _, hx => by
    simp only [samplesOf, List.getElem?_cons_zero, Option.some.injEq] at hx
    have hb := sampleBytes_littleEndian b0 b1
    rw [hx] at hb
    simp only [sampleBytes, List.cons.injEq] at hb
    simp [hb.1, hb.2.1]
  | b0 :: b1 :: t, n, i + 1, x, h, hx => by
    have := samplesOf_getElem_bytes t (n - 1) i x (by simp at h; omega) (by simpa [samplesOf] using hx)
    simpa [Nat.mul_add] using this

/-- Frame `j` of a byte sequence is its sample 2`j` plus 2^16 times its sample 2`j` + 1 (40_load_pack R73). -/
theorem framesOf_getElem_samples : ∀ (bs : List Byte) (j : Nat), 4 * j + 4 ≤ bs.length →
    ∃ l r : Sample, (samplesOf bs)[2 * j]? = some l ∧ (samplesOf bs)[2 * j + 1]? = some r ∧
      (framesOf bs)[j]? = some (BitVec.ofNat 32 (l.toNat + r.toNat * 2 ^ 16))
  | [], j, h => by simp at h
  | [_], j, h => by simp at h
  | [_, _], j, h => by simp at h
  | [_, _, _], j, h => by simp at h
  | b0 :: b1 :: b2 :: b3 :: t, 0, _ => by
    refine ⟨_, _, rfl, rfl, ?_⟩
    have h0 := b0.isLt
    have h1 := b1.isLt
    have h2 := b2.isLt
    have h3 := b3.isLt
    simp only [framesOf, List.getElem?_cons_zero, littleEndian, BitVec.toNat_ofNat]
    congr 2
    omega
  | b0 :: b1 :: b2 :: b3 :: t, j + 1, h => by
    have ht : 4 * j + 4 ≤ t.length := by simp at h; omega
    simpa [framesOf, samplesOf, Nat.mul_add] using framesOf_getElem_samples t j ht

/-- A byte sequence has a frame for every four whole bytes. -/
theorem framesOf_length_div : ∀ bs : List Byte, (framesOf bs).length = bs.length / 4
  | [] => rfl
  | [_] => by simp [framesOf]
  | [_, _] => by simp [framesOf]
  | [_, _, _] => by simp [framesOf]
  | b0 :: b1 :: b2 :: b3 :: t => by
    simp only [framesOf, List.length_cons, framesOf_length_div t]
    omega

theorem samplesOf_append (bs cs : List Byte) :
    ∀ n, bs.length = 2 * n → samplesOf (bs ++ cs) = samplesOf bs ++ samplesOf cs := by
  intro n
  induction bs using samplesOf.induct generalizing n with
  | case1 b0 b1 t ih =>
    intro h
    simp [samplesOf, ih (n - 1) (by simp at h; omega)]
  | case2 bs hb =>
    intro h
    match bs, hb, h with
    | [], _, _ => rfl
    | [_], _, h => simp at h; omega
    | b0 :: b1 :: t, hb, _ => exact absurd rfl (hb b0 b1 t)

theorem State.BufferOk.bytesOf_samples {s : State} (h : s.BufferOk) : bytesOf s.samples = s.bytes :=
  bytesOf_samplesOf _ _ h.bytes_length

theorem State.BufferOk.samples_length {s : State} (h : s.BufferOk) : s.samples.length = s.nsamp.toNat :=
  samplesOf_length _ _ h.bytes_length

/-- The frames of a buffer, as its samples give them (40_load_pack R73). -/
theorem State.BufferOk.frames_getElem {s : State} (h : s.BufferOk) {j : Nat} (hj : 2 * j + 1 < s.nsamp.toNat) :
    ∃ l r : Sample, s.samples[2 * j]? = some l ∧ s.samples[2 * j + 1]? = some r ∧
      s.frames[j]? = some (BitVec.ofNat 32 (l.toNat + r.toNat * 2 ^ 16)) :=
  framesOf_getElem_samples s.bytes j (by rw [h.bytes_length]; omega)

theorem State.BufferOk.frames_length {s : State} (h : s.BufferOk) : s.frames.length = s.nsamp.toNat / 2 := by
  rw [State.frames, framesOf_length_div, h.bytes_length]
  omega

/-- The walk may start anywhere inside the buffer. -/
theorem Memory.readBytes_ofBytes_from (a n k : Nat) (bs : List Byte) (h : k + n ≤ bs.length) :
    (Memory.ofBytes a bs).readBytes (a + k) n = some ((bs.drop k).take n) := by
  induction k generalizing a bs with
  | zero => exact Memory.readBytes_ofBytes a n bs (by omega)
  | succ k ih =>
    cases bs with
    | nil => simp at h
    | cons b bs =>
      have ht := ih (a + 1) bs (by simp at h; omega)
      cases n with
      | zero => simp [Memory.readBytes]
      | succ n =>
        rw [Memory.ofBytes, Memory.readBytes, if_neg (by omega), if_pos (by omega),
          show a + (k + 1) = a + 1 + k by omega, ht]
        rfl

/-- Bytes inside a good buffer. -/
theorem State.loadBytes_inside {s : State} (h : s.BufferOk) (hcap : s.nsamp.toNat ≤ s.cfg.cap.toNat) {a n : Nat}
    (hn : a + n ≤ 2 * s.nsamp.toNat) : s.loadBytes a n = .ok ((s.bytes.drop a).take n) := by
  have hr := Memory.readBytes_ofBytes_from 0 n a s.bytes (by rw [h.bytes_length]; exact hn)
  rw [← h.buf_eq, Nat.zero_add] at hr
  unfold State.loadBytes
  rw [if_neg (by omega), hr]

/-- In READY the engines read the whole buffer. -/
theorem State.Inv.loadBytes_ready {s : State} (h : s.Inv) (hp : s.status.phase = .ready) :
    s.loadBytes 0 (4 * s.nframes.toNat) = .ok s.bytes ∧ s.loadBytes 0 (2 * s.nsamp.toNat) = .ok s.bytes :=
  ⟨State.loadBytes_frames h.1 h.2.1.2.1 (h.2.2.2.2.1.2.1 hp).1, State.loadBytes_all h.1 h.2.1.2.1⟩

/-! ### Inversion -/

/-- Everything a command can answer as a next state: ignored in FAULT, an error taken, or its own effect. -/
theorem exec_next {i : Instr} {s t : State} (h : exec i s = .next t) :
    IgnoredOrRaised s t ∨ (i = .nop ∧ t = s.respond 0) ∨ (i = .clear ∧ t = s.cleared.respond 0) ∨
    (∃ r, i = .get r ∧ t = s.respond (s.readReg r)) ∨
    (∃ a b, i = .setpos a b ∧ s.status.phase = .load ∧ posInBounds a b = true ∧
      t = State.respond { s with pos := posWord a b, status := { s.status with posValid := true } } 0) ∨
    (∃ x, i = .push x ∧ s.status.phase = .load ∧ s.nsamp ≠ s.cfg.cap ∧
      2 * s.nsamp.toNat + 2 ≤ 2 * s.cfg.cap.toNat ∧
      t = State.respond { s with
            buf := s.buf.writeBytes (2 * s.nsamp.toNat) (sampleBytes x), nsamp := s.nsamp + 1 } 0) ∨
    (i = .sealBuffer ∧ s.status.phase = .load ∧ s.nsamp.getLsbD 0 = false ∧
      t = State.respond { s with nframes := s.nsamp / 2, status := { s.status with phase := .ready } } 0) ∨
    (∃ j w, i = .peekf j ∧ s.status.phase = .ready ∧ j.toNat < s.nframes.toNat ∧ s.frame j.toNat = .ok w ∧
      t = s.respond w) ∨
    (i = .ar ∧ s.status.phase = .ready ∧ s.status.posValid = true ∧
      ∃ bs, s.loadBytes 0 (4 * s.nframes.toNat) = .ok bs ∧ t = (s.arFrom (framesOf bs)).respond 0) ∨
    (i = .crc ∧ s.status.phase = .ready ∧
      ∃ bs, s.loadBytes 0 (2 * s.nsamp.toNat) = .ok bs ∧ t = (s.writeCrc (crc32Of bs)).respond 0) ∨
    (i = .arcrc ∧ s.status.phase = .ready ∧ s.status.posValid = true ∧
      ∃ bs cs, s.loadBytes 0 (4 * s.nframes.toNat) = .ok bs ∧ s.loadBytes 0 (2 * s.nsamp.toNat) = .ok cs ∧
        t = ((s.arFrom (framesOf bs)).writeCrc (crc32Of cs)).respond 0) ∨
    (i = .strip ∧ s.cfg.hasStrip = true ∧ s.status.phase = .ready ∧ s.status.crcValid = true ∧
      ∃ bs, s.loadBytes 0 (2 * s.nsamp.toNat) = .ok bs ∧
        t = (s.writeStripped (strip (samplesOf bs))).respond 0) := by
  cases i with
  | nop => injection h with h; subst h; simp
  | clear => injection h with h; subst h; simp
  | get r => injection h with h; subst h; simp
  | setpos a b =>
    rcases execSetpos_next h with h | h
    · exact .inl h
    · right; simp; simpa using h
  | push x =>
    rcases execPush_next h with h | h
    · exact .inl h
    · right; simp; simpa using h
  | sealBuffer =>
    rcases execSeal_next h with h | h
    · exact .inl h
    · right; simp; simpa using h
  | peekf j =>
    rcases execPeekf_next h with h | ⟨h1, h2, w, h3, h4⟩
    · exact .inl h
    · right; simp; exact ⟨h1, h2, w, h3, h4⟩
  | ar =>
    rcases execAr_next h with h | h
    · exact .inl h
    · right; simp; simpa using h
  | crc =>
    rcases execCrc_next h with h | h
    · exact .inl h
    · right; simp; simpa using h
  | arcrc =>
    rcases execArcrc_next h with h | h
    · exact .inl h
    · right; simp; simpa using h
  | strip =>
    rcases execStrip_next h with h | h
    · exact .inl h
    · right; simp; simpa using h

/-- Everything a step can answer as a next state: nothing presented, a decoded command, or a word that is no command. -/
theorem step_next {s t : State} (h : step s = .next t) :
    (s.presented = none ∧ t = s) ∨
    ∃ w, s.presented = some w ∧
      ((∃ i, decode s.cfg.hasStrip w = .ok i ∧ exec i s.advance = .next t) ∨
        ((∃ e, decode s.cfg.hasStrip w = .error e) ∧ IgnoredOrRaised s.advance t)) := by
  unfold step at h
  split at h
  · next hn => injection h with h; exact .inl ⟨hn, h.symm⟩
  · next w hw =>
    refine .inr ⟨w, hw, ?_⟩
    split at h
    · next i hd => exact .inl ⟨i, hd, h⟩
    · next e hd =>
      refine .inr ⟨⟨e, hd⟩, ?_⟩
      rcases execIllegal_next h with h | ⟨hp, rfl⟩
      · exact .inl h
      · exact .inr ⟨hp, _, _, rfl, by decide⟩

end Sys2Proof.Machine
end

