-- ==== Sys2Proof/Laws/PerInstr.lean ====
section
/-! SUPPORT. Statements per command, as syntax. `OpcodeField`: the opcode bits of a command's word are those of its row
of the opcode table, whatever its operands (spec/30_encoding.md R60, R63). -/

namespace Sys2Proof.Laws.OpcodeField

/-- Bits 31:28 of a command's word are bits 31:28 of its row's match (30_encoding R60, R63). -/
def Statement (i : Instr) : Prop := opField (encode i) = opField i.row.pattern

theorem nop : Statement .nop := rfl
theorem clear : Statement .clear := rfl

theorem setpos (track total : BitVec 8) : Statement (.setpos track total) := by
  have ht := track.isLt
  have hn := total.isLt
  apply BitVec.eq_of_toNat_eq
  simp [opField, encode, pack, Instr.row, Nat.shiftRight_eq_div_pow]
  omega

theorem push (sample : Sample) : Statement (.push sample) := by
  have hx := sample.isLt
  apply BitVec.eq_of_toNat_eq
  simp [opField, encode, pack, Instr.row, Nat.shiftRight_eq_div_pow]
  omega

theorem sealBuffer : Statement .sealBuffer := rfl
theorem ar : Statement .ar := rfl
theorem crc : Statement .crc := rfl
theorem arcrc : Statement .arcrc := rfl
theorem strip : Statement .strip := rfl
theorem get (reg : Reg) : Statement (.get reg) := by cases reg <;> rfl

theorem peekf (index : BitVec 28) : Statement (.peekf index) := by
  have hj := index.isLt
  apply BitVec.eq_of_toNat_eq
  simp [opField, encode, pack, Instr.row, Nat.shiftRight_eq_div_pow]
  omega

end Sys2Proof.Laws.OpcodeField
end

