-- ==== Sys2Proof/Tests/Slice0.lean ====
section
/-! SUPPORT. Tests with results from the spec's worked examples and vectors (spec/95_test_vectors.md), each about one
step or one function, and for every obligation with hypotheses a state that meets them (`witness_…`, one conjunct per
clause, at the boundary of its range). -/

namespace Sys2Proof.Tests

open Sys2Proof Sys2Proof.Machine

/-! ### Small states -/

/-- The state a result goes to. -/
def after : Result → Option State
  | .next t => some t
  | _ => none

/-- LOAD with the given samples pushed. -/
def loading (xs : List Sample) : State :=
  { State.reset with nsamp := BitVec.ofNat 32 xs.length, buf := Memory.ofBytes 0 (bytesOf xs) }

/-- READY with the given samples sealed; `pos` 0 stands for no Track Position. -/
def ready (pos : Word) (xs : List Sample) : State :=
  { loading xs with
    pos := pos
    nframes := BitVec.ofNat 32 (xs.length / 2)
    status := { Status.initial with phase := .ready, posValid := decide (pos ≠ 0) } }

/-- READY with the whole-buffer CRC computed. -/
def checked (pos : Word) (xs : List Sample) : State := (ready pos xs).writeCrc (crc32Of (bytesOf xs))

theorem checked_truthful (pos : Word) (xs : List Sample) (h : bytesOf xs = (checked pos xs).bytes) :
    (checked pos xs).Truthful :=
  ⟨fun _ _ => congrArg crc32Of h, fun _ hv => Bool.noConfusion hv, fun hp => Phase.noConfusion hp⟩

/-- STRIPPED with the given samples, all of them survivors. -/
def stripped (xs : List Sample) : State := (checked 0 xs).writeStripped xs

/-- FAULT after the example of 43_sequencing R113: five samples, then `SEAL`. -/
def faulted : State := ((loading [1, 2, 3, 4, 5]).enterFault .oddSampleCount 5)

/-- A build without silence stripping. -/
def noStrip : Config := ⟨200000, false⟩

/-- The smallest build the spec allows. -/
def smallest : Config := ⟨2, true⟩

/-- `s` with the word `w` presented next. -/
def with32 (s : State) (w : Nat) : State := s.withFetchWord 32 w

/-- The buffer `ramp(N)` of spec/95_test_vectors.md. -/
def ramp (n : Nat) : List Sample := (List.range (2 * n)).map fun i => BitVec.ofNat 16 (7 * i + 1)

/-- The invariant, its eight clauses decided one by one. -/
def invClauses (s : State) : Bool :=
  decide s.BufferOk && (decide s.CapacityOk && (decide s.ErrorOk && (decide s.PosOk && (decide s.PhaseOk &&
    (decide s.FaultOk && (decide s.ResultOk && decide s.PortOk))))))

theorem inv_of_clauses {s : State} (h : invClauses s = true) : s.Inv := by
  simp only [invClauses, Bool.and_eq_true, decide_eq_true_eq] at h
  exact h

/-! ### Well-formedness and the encodings -/

/-- The one check a command can fail: `STRIP` in a build without it (30_encoding R66). -/
theorem test_strip_ill_formed_without_option : Instr.strip.wellFormed false = false := by decide
theorem test_strip_well_formed_with_option : Instr.strip.wellFormed true = true := by decide

/-- One word per constructor, written out from 30_encoding R60, R61, R63 field by field (opcode, operand). -/
theorem test_decode_nop : decode true 0b0000_0000000000000000000000000000#32 = .ok .nop := by decide
theorem test_decode_clear : decode true 0b0001_0000000000000000000000000000#32 = .ok .clear := by decide
theorem test_decode_setpos : decode true 0b0010_000000000000_00000011_00000010#32 = .ok (.setpos 2 3) := by decide
theorem test_decode_push : decode true 0b0011_000000000000_0001001000110100#32 = .ok (.push 0x1234) := by decide
theorem test_decode_seal : decode true 0b0100_0000000000000000000000000000#32 = .ok .sealBuffer := by decide
theorem test_decode_ar : decode true 0b0101_0000000000000000000000000000#32 = .ok .ar := by decide
theorem test_decode_crc : decode true 0b0110_0000000000000000000000000000#32 = .ok .crc := by decide
theorem test_decode_arcrc : decode true 0b0111_0000000000000000000000000000#32 = .ok .arcrc := by decide
theorem test_decode_strip : decode true 0b1000_0000000000000000000000000000#32 = .ok .strip := by decide
theorem test_decode_get : decode true 0b1001_000000000000000000000000_1100#32 = .ok (.get .crc32ss) := by decide
theorem test_decode_peekf : decode true 0b1010_1111111111111111111111111111#32 = .ok (.peekf 0xFFFFFFF) := by decide

/-- Words of vectors V2, V4, V6, V8, V10 and V70: none is a command. -/
theorem test_decode_reserved :
    [0x00000001, 0x20010101, 0x30011234, 0x90000019, 0x50000001, 0x10000001].map (decode true) =
      List.replicate 6 (.error .reservedBits) ∧
    [0xB0000000, 0xFFFFFFFF].map (decode true) = List.replicate 2 (.error .reservedOpcode) ∧
    decode false 0x80000000 = .error .stripNotBuilt := by decide

/-- No word matches two rows of the opcode map: any two rows differ in a bit both masks fix (30_encoding R63). -/
theorem test_rows_disjoint :
    opcodeRows.Pairwise (fun x y => x.pattern &&& (x.mask &&& y.mask) ≠ y.pattern &&& (x.mask &&& y.mask)) := by
  decide

/-- The table's word of `SETPOS` with its operand bits 0, and a word the table does not have. -/
theorem test_decode_table_word :
    decodeTableWord 32 0x20000000 = some (.setpos 0 0) ∧ decodeTableWord 32 0xB0000000 = none := by decide

/-- A placed word is the first command after reset: `SETPOS 2, 3` of vector V3. -/
theorem test_step_runs_placed_word :
    (after (step (with32 State.reset 0x20000302))).map (fun t => (t.readReg .pos, t.readReg .status, t.pc)) =
      some (0x302, 4, 1) := by decide

/-! ### One step of each command -/

/-- V1. -/
theorem test_nop : after (exec .nop State.reset) = some { State.reset with rsp := some ⟨0, 0⟩ } := by decide

/-- P3, command 11: `NOP` in FAULT. -/
theorem test_nop_in_fault : after (exec .nop faulted) = some { faulted with rsp := some ⟨6, 0⟩ } := by decide

/-- The example of 43_sequencing R113. -/
theorem test_clear_from_fault :
    faulted.readReg .status = 0x603 ∧ faulted.errinfo = 5 ∧
    after (exec .clear faulted) = some { State.reset with rsp := some ⟨0, 0⟩ } := by decide

/-- V3 and the last of V12. -/
theorem test_setpos :
    (after (exec (.setpos 50 99) State.reset)).map (fun t => (t.pos, t.readReg .status, t.rsp)) =
      some (0x6332, 4, some ⟨0, 0⟩) := by decide

/-- L7, the row `SETPOS 1, 100`. -/
theorem test_setpos_out_of_bounds :
    (after (exec (.setpos 1 100) State.reset)).map (fun t => (t.readReg .status, t.errinfo, t.pos, t.rsp)) =
      some (0x103, 0x20006401, 0, some ⟨1, 0⟩) := by decide

/-- V11: the second `PUSH`; the buffer's bytes are 34 12 CD AB. -/
theorem test_push :
    (after (exec (.push 0xABCD) (loading [0x1234]))).map (fun t => (t.nsamp, t.bytes)) =
      some (2, [0x34, 0x12, 0xCD, 0xAB]) := by decide

/-- V18: a full buffer of `CAP` = 2. -/
theorem test_push_full :
    (after (exec (.push 3) { loading [1, 2] with cfg := smallest })).map
      (fun t => (t.rsp, t.readReg .status, t.errinfo, t.buf)) = some (some ⟨4, 0⟩, 0x403, 2, []) := by decide

/-- The first example of 40_load_pack R76. -/
theorem test_seal :
    (after (exec .sealBuffer (loading [0, 1, 0, 0, 2, 0]))).map (fun t => (t.nframes, t.readReg .status)) =
      some (3, 1) := by decide

/-- V15: an odd count. -/
theorem test_seal_odd :
    (after (exec .sealBuffer (loading [7, 8, 9]))).map (fun t => (t.rsp, t.readReg .status, t.errinfo, t.nsamp)) =
      some (some ⟨6, 0⟩, 0x603, 3, 0) := by decide

/-- V16. -/
theorem test_peekf :
    (after (exec (.peekf 0) (ready 0 [0x1234, 0xABCD]))).map (fun t => t.rsp) = some (some ⟨0, 0xABCD1234⟩) := by decide

/-- V17. -/
theorem test_peekf_out_of_range :
    (after (exec (.peekf 1) (ready 0 [0x1234, 0xABCD]))).map (fun t => (t.rsp, t.readReg .status, t.errinfo)) =
      some (some ⟨9, 0⟩, 0x903, 0xA0000001) := by decide

/-- V53, the example of 41_accuraterip R85: three frames 0xFFFFFFFF on track 2 of 3. -/
theorem test_ar :
    (after (exec .ar (ready 0x302 (List.replicate 6 0xFFFF)))).map
      (fun t => (t.sumFrom, t.sumTo, t.csumLo, t.csumHi, t.arV1, t.arV2, t.readReg .status)) =
      some (0, 3, 0xFFFFFFFA, 3, 0xFFFFFFFA, 0xFFFFFFFD, 0xD) := by decide

/-- V48: a last track of ten frames has a negative upper end and sums nothing. -/
theorem test_ar_negative_window :
    (after (exec .ar (ready 0x202 (ramp 10)))).map (fun t => (t.sumFrom, t.sumTo, t.arV1, t.arV2, t.csumHi)) =
      some (0, 0xFFFFF48E, 0, 0, 0) := by decide

/-- V27. -/
theorem test_crc :
    (after (exec .crc (ready 0 [0x1234, 0xABCD]))).map (fun t => (t.crc32, t.readReg .status)) =
      some (0x7EFF1497, 0x11) := by decide +kernel

/-- V30: the empty buffer. -/
theorem test_crc_empty :
    (after (exec .crc (ready 0 []))).map (fun t => (t.crc32, t.readReg .status)) = some (0, 0x11) := by decide

/-- The example of 43_sequencing R112. -/
theorem test_arcrc :
    (after (exec .arcrc (ready 0x302 [0x1234, 0xABCD]))).map
      (fun t => (t.arV1, t.arV2, t.csumHi, t.sumTo, t.crc32, t.readReg .status)) =
      some (0xABCD1234, 0xABCD1234, 0, 1, 0x7EFF1497, 0x1D) := by decide +kernel

/-- V68: without a Track Position neither pass runs. -/
theorem test_arcrc_without_position :
    (after (exec .arcrc (ready 0 [1, 2]))).map (fun t => (t.rsp, t.errinfo, t.crc32)) =
      some (some ⟨7, 0⟩, 0x70000000, 0) := by decide

/-- V31: survivors 1 and 2, `NFRAMES` as sealed. -/
theorem test_strip :
    (after (exec .strip (checked 0 [0, 1, 0, 0, 2, 0]))).map
      (fun t => (t.samples, t.nsamp, t.nframes, t.crc32, t.crc32ss)) =
      some ([1, 2], 2, 3, 0x3E1E65DA, 0xABCEDAFB) := by decide +kernel

/-- V34: an odd number of survivors. -/
theorem test_strip_odd :
    (after (exec .strip (checked 0 [0, 5, 7, 9]))).map (fun t => (t.samples, t.nsamp, t.crc32ss, t.readReg .status)) =
      some ([5, 7, 9], 3, 0xAD1AB3E0, 0x32) := by decide +kernel

/-- V60: the constants and a cleared register. -/
theorem test_get :
    [0, 12, 13, 14, 15].map (fun n => (after (exec (.get (Reg.ofNum n)) State.reset)).map State.rsp) =
      [some (some ⟨0, 0⟩), some (some ⟨0, 0⟩), some (some ⟨0, 0x30D40⟩), some (some ⟨0, 1⟩), some (some ⟨0, 0xB7C⟩)] := by
  decide

/-- P3, commands 7 and 8 with the example of R113: `GET` is performed in FAULT. -/
theorem test_get_in_fault :
    [1, 3].map (fun n => (after (exec (.get (Reg.ofNum n)) faulted)).map State.rsp) =
      [some (some ⟨6, 5⟩), some (some ⟨6, 0⟩)] := by decide

/-- P3, command 12: an illegal word in FAULT is ignored; V10 outside it. -/
theorem test_illegal :
    (after (step (with32 faulted 0xFFFFFFFF))).map (fun t => (t.readReg .status, t.errinfo, t.rsp)) =
      some (0x603, 5, some ⟨6, 0⟩) ∧
    (after (step (with32 State.reset 0xFFFFFFFF))).map (fun t => (t.readReg .status, t.errinfo, t.rsp)) =
      some (0x803, 0xFFFFFFFF, some ⟨8, 0⟩) := by decide

/-- V70: the build without silence stripping. -/
theorem test_strip_not_built :
    (after (step (with32 { checked 0 [] with cfg := noStrip } 0x80000000))).map
      (fun t => (t.readReg .status, t.errinfo, t.readReg .config)) = some (0x803, 0x80000000, 0) := by decide

/-! ### The engines at their corners -/

/-- V41, V42 and conflict C1: frame 2940 is the first one summed on a first track, frame 2939 is not. -/
theorem test_window_ends :
    let w := windowOf 0x201 2941
    w.admits 2939 = false ∧ accumulate w 2940 0xA0C2A0BB ⟨0, 0⟩ = ⟨0x3B2DE394, 0x736⟩ ∧
    accumulate w 2941 0xA0D0A0C9 ⟨0x3B2DE394, 0x736⟩ = ⟨0xB7F508B9, 0xE6D⟩ := by decide

/-- V40, V43 to V47, V51: the two bounds as the registers read them. -/
theorem test_window_bounds :
    [(0x201, 2939), (0x202, 2940), (0x202, 2941), (0x101, 5879), (0x101, 5881), (0x101, 0)].map
      (fun c => ((windowOf c.1 c.2).sumFrom, (windowOf c.1 c.2).sumTo)) =
      [(2940, 2939), (0, 0), (0, 1), (2940, 2939), (2940, 2941), (2940, -2940)] := by decide

/-- V28: the bytes "12345678". -/
theorem test_crc_bytes : crc32Of (bytesOf [0x3231, 0x3433, 0x3635, 0x3837]) = 0x9AE0DAAF := by decide +kernel

/-- V31 by the loop of 42_crc32 R102. -/
theorem test_compact_loop :
    (compactLoop (Memory.ofBytes 0 (bytesOf [0, 1, 0, 0, 2, 0])) 0 0 6).map (fun r => (truncateTo r.2 r.1, r.2)) =
      some ([(0, 1), (1, 0), (2, 2), (3, 0)], 2) := by decide

/-! ### The host's side -/

/-- The worked encodings of 30_encoding R69, and pseudo-commands of R70 (V19, V20). -/
theorem test_assemble :
    ["SETPOS 2, 3 ; comment", "PUSH 0x1234", "GET AR_V1", "GET 9", "PEEKF 5"].map assemble =
      [some [0x20000302], some [0x30001234], some [0x90000009], some [0x90000009], some [0xA0000005]] ∧
    assemble "PUSHS -1" = some [0x3000FFFF] ∧ assemble "PUSHW 0xABCD1234" = some [0x30001234, 0x3000ABCD] ∧
    assemble "PUSH 65536" = none := by decide +kernel

/-- The words of program P1, without its two reads for show. -/
theorem test_canonical_sequence :
    (canonicalSequence 2 3 [0x1234, 0xABCD] true).map encode =
      [0x10000000, 0x20000302, 0x30001234, 0x3000ABCD, 0x40000000, 0x70000000, 0x80000000, 0x90000009, 0x9000000A,
       0x9000000B, 0x9000000C] := by decide

/-! ### Witnesses: for each statement with hypotheses, states that meet them -/

theorem witness_DecodeOfEncode : Instr.strip.wellFormed true = true ∧ (Instr.setpos 255 255).wellFormed false = true := by
  decide

theorem witness_EncodeOfDecode :
    decode true 0x2000FFFF = .ok (.setpos 255 255) ∧ decode false 0xAFFFFFFF = .ok (.peekf 0xFFFFFFF) := by decide

theorem witness_DecodeFollowsMaskAndMatch : ∀ row ∈ opcodeRows, (0xBFFFFFFF : Word) &&& row.mask ≠ row.pattern := by
  decide

theorem witness_StepRunsDecodedCommand :
    let s := with32 State.reset 0x3000FFFF
    s.program[s.pc]? = some 0x3000FFFF ∧ decode s.cfg.hasStrip 0x3000FFFF = .ok (.push 0xFFFF) := by decide

theorem witness_StepWithoutCommandHoldsState : State.reset.program[State.reset.pc]? = none := by decide

theorem witness_ReservedOpcodeIsIllegal :
    let s := with32 State.reset 0xB0000000
    let f := with32 faulted 0xFFFFFFFF
    (s.program[s.pc]? = some 0xB0000000 ∧ 0xB ≤ ((0xB0000000 : Word).extractLsb' 28 4).toNat ∧ s.status.phase ≠ .fault) ∧
    (f.program[f.pc]? = some 0xFFFFFFFF ∧ 0xB ≤ ((0xFFFFFFFF : Word).extractLsb' 28 4).toNat ∧
      f.status.phase = .fault) := by decide

/-- The hypothesis of the statement on a word. -/
abbrev ReservedBits (w : Word) : Prop :=
  (w.extractLsb' 28 4).toNat ∈ [0, 1, 4, 5, 6, 7, 8] ∧ w.extractLsb' 0 28 ≠ 0 ∨
    (w.extractLsb' 28 4).toNat ∈ [2, 3] ∧ w.extractLsb' 16 12 ≠ 0 ∨
    (w.extractLsb' 28 4).toNat = 9 ∧ w.extractLsb' 4 24 ≠ 0

theorem witness_ReservedBitsAreIllegal :
    (ReservedBits 0x00000001 ∧ ReservedBits 0x88000000) ∧ (ReservedBits 0x20010000 ∧ ReservedBits 0x38000000) ∧
    (ReservedBits 0x90000010 ∧ ReservedBits 0x98000000) ∧
    ((with32 State.reset 0x38000000).program[State.reset.pc]? = some 0x38000000 ∧
      State.reset.status.phase ≠ .fault) ∧
    (with32 faulted 1).program[faulted.pc]? = some 1 ∧ faulted.status.phase = .fault :=
  ⟨⟨by decide, by decide⟩, ⟨by decide, by decide⟩, ⟨by decide, by decide⟩, by decide⟩

theorem witness_StripNotBuilt :
    let s := with32 (State.resetWith noStrip) 0x80000000
    s.cfg.hasStrip = false ∧ s.program[s.pc]? = some 0x80000000 ∧ s.status.phase ≠ .fault ∧
    s.crc32ss = 0 ∧ s.status.ssValid = false ∧ s.status.phase ≠ .stripped ∧ ∃ t, step s = .next t :=
  ⟨rfl, rfl, by decide, rfl, rfl, by decide, _, rfl⟩

theorem witness_IndexAdvancesByOne :
    (with32 State.reset 0xFFFFFFFF).program[State.reset.pc]? = some 0xFFFFFFFF ∧
    ∃ t, step (with32 State.reset 0xFFFFFFFF) = .next t := ⟨rfl, _, rfl⟩

theorem witness_ResponseCarriesStatusError :
    (with32 State.reset 0x9000000F).program[State.reset.pc]? = some 0x9000000F ∧
    ∃ t, step (with32 State.reset 0x9000000F) = .next t ∧ t.rsp = some ⟨0, 2940⟩ := ⟨rfl, _, rfl, rfl⟩

theorem witness_FaultPhaseIgnores :
    faulted.status.phase = .fault ∧
    (∀ w ∈ [0x90000000, 0x10000000, 0x70000000, 0x10000001],
      (with32 faulted w).program[faulted.pc]? = some (BitVec.ofNat 32 w)) ∧
    decode true 0x90000000 = .ok (.get .status) ∧ decode true 0x10000000 = .ok .clear ∧
    ((∀ r, decode true 0x70000000 ≠ .ok (.get r)) ∧ decode true 0x70000000 ≠ .ok .clear) ∧
    ((∀ r, decode true 0x10000001 ≠ .ok (.get r)) ∧ decode true 0x10000001 ≠ .ok .clear) :=
  ⟨rfl, by decide, by decide, by decide, ⟨fun r => by cases r <;> decide, by decide⟩,
    ⟨fun r => by cases r <;> decide, by decide⟩⟩

/-- Each level of the order of checks, a transaction that raises nothing, and FAULT (V64, V65 among them). -/
theorem witness_FirstFailingCheckWins :
    (with32 State.reset 0x20010000).Inv ∧ (with32 (ready 0 []) 0x20000000).Inv ∧
    (with32 State.reset 0x20000000).Inv ∧ State.reset.status.phase ≠ .fault ∧ (ready 0 []).status.phase ≠ .fault ∧
    transactionError State.reset 0x20010000 = some (.illegalCommand, 0x20010000) ∧
    transactionError (ready 0 []) 0x20000000 = some (.sequence, 0x20000000) ∧
    transactionError State.reset 0x20000000 = some (.invalidArgument, 0x20000000) ∧
    transactionError State.reset 0x20000101 = none ∧
    ((with32 faulted 0x60000000).Inv ∧ faulted.status.phase = .fault ∧ decode true 0x60000000 ≠ .ok .clear) :=
  ⟨inv_of_clauses (by decide), inv_of_clauses (by decide), inv_of_clauses (by decide), by decide, by decide,
    by decide, by decide, by decide, by decide, inv_of_clauses (by decide), by decide⟩

theorem witness_IllegalPhaseRaisesSequence :
    State.reset.status.phase ≠ .fault ∧ legal State.reset .crc = false ∧ legal State.reset .sealBuffer = true ∧
    (ready 0 []).status.phase ≠ .fault ∧ legal (ready 0 []) .ar = false ∧ legal (ready 0x101 []) .ar = true ∧
    Instr.strip.wellFormed (ready 0 []).cfg.hasStrip = true ∧ legal (ready 0 []) .strip = false ∧
    legal (checked 0 []) .strip = true := by decide

/-- Each way the phase can change, and a step that leaves it. -/
theorem witness_PhaseTransitions :
    ((after (step (with32 (loading [1, 2]) 0x40000000))).map (fun t => t.status.phase) = some .ready) ∧
    ((after (step (with32 (checked 0 [1, 2]) 0x80000000))).map (fun t => t.status.phase) = some .stripped) ∧
    ((after (step (with32 faulted 0x10000000))).map (fun t => t.status.phase) = some .load) ∧
    ((after (step (with32 State.reset 0x60000000))).map (fun t => t.status.phase) = some .fault) ∧
    ((after (step (with32 State.reset 0x30000000))).map (fun t => t.status.phase) = some .load) := by decide +kernel

theorem witness_GetReturnsRegister :
    State.reset.Inv ∧ State.reset.status.arValid = false ∧ State.reset.status.crcValid = false ∧
    State.reset.status.ssValid = false ∧
    (∀ n ∈ ([5, 10] : List (BitVec 4)), 5 ≤ n.toNat ∧ n.toNat ≤ 10) ∧ (11 : BitVec 4).toNat = 11 ∧
    (12 : BitVec 4).toNat = 12 := ⟨inv_of_clauses (by decide), by decide⟩

theorem witness_RegistersChangeOnlyByTheirWriters :
    writesReg (.push 7) .status = false ∧
    ∃ t, exec (.push 7) State.reset = .next t ∧ (t.status.phase = .fault → State.reset.status.phase = .fault) :=
  ⟨rfl, _, rfl, by decide⟩

theorem witness_ConstantRegisters : ∃ t, step (with32 faulted 0x10000000) = .next t := ⟨_, rfl⟩

theorem witness_FlagsAreSetByTheirCommand :
    (∃ t, exec (.setpos 1 1) State.reset = .next t ∧ t.status.posValid = true) ∧
    (∃ t, exec .ar (ready 0x101 []) = .next t ∧ t.status.arValid = true ∧ t.status.posValid = true) ∧
    (∃ t, exec .crc (ready 0 []) = .next t ∧ t.status.crcValid = true) ∧
    (∃ t, exec .strip (checked 0 []) = .next t ∧ t.status.ssValid = true ∧ t.status.crcValid = true) :=
  ⟨⟨_, rfl, rfl⟩, ⟨_, rfl, rfl, rfl⟩, ⟨_, rfl, rfl⟩, ⟨_, rfl, rfl, rfl⟩⟩

theorem witness_ClearIsReset :
    faulted.status.phase = .fault ∧
    (after (step (with32 faulted 0x10000000))).map (fun t => t.status.phase) = some .load := by decide

/-- Both ends of each bound, with the examples of 40_load_pack R75 on the other side. -/
theorem witness_SetposRecordsPosition :
    let inside := fun t n : BitVec 8 => 1 ≤ n.toNat ∧ n.toNat ≤ 99 ∧ 1 ≤ t.toNat ∧ t.toNat ≤ n.toNat
    State.reset.status.phase = .load ∧ inside 1 1 ∧ inside 99 99 ∧ inside 1 99 ∧
    ¬inside 0 1 ∧ ¬inside 2 1 ∧ ¬inside 1 0 ∧ ¬inside 1 100 ∧
    (ready 0 []).status.phase ≠ .load ∧ (ready 0 []).status.phase ≠ .fault := by decide

/-- The last free sample index, the full buffer, and a phase that takes no sample. -/
theorem witness_PushAppendsSample :
    let one := { loading [1] with cfg := smallest }
    let two := { loading [1, 2] with cfg := smallest }
    (one.status.phase = .load ∧ one.nsamp.toNat + 1 = one.cfg.cap.toNat) ∧
    (two.status.phase = .load ∧ two.nsamp = two.cfg.cap) ∧
    (stripped [1]).status.phase ≠ .load ∧ (stripped [1]).status.phase ≠ .fault := by decide

theorem witness_PushStoresTwoBytes :
    let s := { loading [1] with cfg := smallest }
    s.status.phase = .load ∧ s.nsamp.toNat < s.cfg.cap.toNat ∧ s.BufferOk ∧ ∃ t, exec (.push 0xABCD) s = .next t :=
  ⟨rfl, by decide, by decide, _, rfl⟩

theorem witness_SealPairsSamples :
    State.reset.status.phase = .load ∧ State.reset.nsamp.toNat % 2 = 0 ∧ (loading [1]).nsamp.toNat % 2 = 1 ∧
    (loading [1, 2]).nsamp.toNat % 2 = 0 ∧ (ready 0 []).status.phase ≠ .load ∧
    (ready 0 []).status.phase ≠ .fault := by decide

theorem witness_FramePacksTwoSamples :
    let s := { loading [0x1234, 0xABCD] with cfg := smallest }
    s.BufferOk ∧ s.nsamp.toNat ≤ s.cfg.cap.toNat ∧ 2 * 0 + 1 < s.nsamp.toNat ∧ s.frames = [0xABCD1234] := by decide

/-- The last index, the first one out of range (the empty buffer's among them), and a wrong phase. -/
theorem witness_PeekfReturnsFrame :
    let s := ready 0 (ramp 3)
    s.Inv ∧ s.status.phase = .ready ∧ (2 : BitVec 28).toNat < s.nframes.toNat ∧
    s.nframes.toNat ≤ (3 : BitVec 28).toNat ∧ (ready 0 []).status.phase = .ready ∧
    (ready 0 []).nframes.toNat ≤ (0 : BitVec 28).toNat ∧ State.reset.status.phase ≠ .ready ∧
    State.reset.status.phase ≠ .fault := ⟨inv_of_clauses (by decide), by decide⟩

theorem witness_ArComputesChecksums :
    (ready 0x302 (ramp 3)).Inv ∧ (ready 0x302 (ramp 3)).status.phase = .ready ∧
    (ready 0x302 (ramp 3)).status.posValid = true ∧ State.reset.status.phase ≠ .ready ∧
    State.reset.status.phase ≠ .fault ∧ (ready 0 []).status.phase = .ready ∧ (ready 0 []).status.posValid = false :=
  ⟨inv_of_clauses (by decide), by decide⟩

/-- V52: the sums of the ramp on a middle track are not 0. -/
theorem witness_ArClosedForm :
    (ready 0x302 (ramp 3)).Inv ∧ (ready 0x302 (ramp 3)).status.phase = .ready ∧
    (ready 0x302 (ramp 3)).status.posValid = true ∧
    (after (exec .ar (ready 0x302 (ramp 3)))).map (fun t => (t.arV1, t.csumHi)) = some (0x00A00076, 0) :=
  ⟨inv_of_clauses (by decide), by decide⟩

theorem witness_ShortLastTrackSumsNothing :
    let s := ready 0x202 (ramp 10)
    s.Inv ∧ s.status.phase = .ready ∧ s.status.posValid = true ∧
    s.pos.extractLsb' 0 8 = s.pos.extractLsb' 8 8 ∧ s.nframes.toNat < 2940 := ⟨inv_of_clauses (by decide +kernel), by decide⟩

/-- The four kinds of position. -/
theorem witness_EmptyWindowByPosition :
    let first := fun pos : Word => pos.extractLsb' 0 8 = 1
    let last := fun pos : Word => pos.extractLsb' 0 8 = pos.extractLsb' 8 8
    (¬first 0x302 ∧ ¬last 0x302) ∧ (first 0x201 ∧ ¬last 0x201) ∧ (¬first 0x202 ∧ last 0x202) ∧
    (first 0x101 ∧ last 0x101) ∧ (∀ m : Nat, 1 ≤ m → m ≤ (1 : Word).toNat → (windowOf 0x202 1).admits m = false) := by
  refine ⟨by decide, by decide, by decide, by decide, fun m h1 h2 => ?_⟩
  have : m = 1 := by simp at h2; omega
  subst this
  decide

theorem witness_ProductsNeverOverflow :
    (ready 0x302 (List.replicate 6 0xFFFF)).Inv ∧ (ready 0x302 (List.replicate 6 0xFFFF)).status.phase = .ready ∧
    (ready 0x302 (List.replicate 6 0xFFFF)).frames[2]? = some 0xFFFFFFFF :=
  ⟨inv_of_clauses (by decide), by decide⟩

theorem witness_V2MinusV1IsHighSum :
    (with32 (ready 0x302 (List.replicate 6 0xFFFF)) 0x50000000).Inv ∧
    (after (step (with32 (ready 0x302 (List.replicate 6 0xFFFF)) 0x50000000))).map (fun t => t.csumHi) = some 3 :=
  ⟨inv_of_clauses (by decide), by decide⟩

theorem witness_CrcComputesWholeBuffer :
    (ready 0 [0x1234, 0xABCD]).Inv ∧ (ready 0 []).Inv ∧ (ready 0 [0x1234, 0xABCD]).status.phase = .ready ∧
    (ready 0 []).nsamp = 0 ∧ (stripped []).status.phase ≠ .ready ∧ (stripped []).status.phase ≠ .fault :=
  ⟨inv_of_clauses (by decide), inv_of_clauses (by decide), by decide⟩

theorem witness_StripCompactsAndComputes :
    let s := checked 0 [0, 5, 7, 9]
    (s.Inv ∧ s.cfg.hasStrip = true ∧ s.status.phase = .ready ∧ s.status.crcValid = true) ∧
    (State.reset.cfg.hasStrip = true ∧ State.reset.status.phase ≠ .ready ∧ State.reset.status.phase ≠ .fault) ∧
    ((ready 0 []).cfg.hasStrip = true ∧ (ready 0 []).status.phase = .ready ∧ (ready 0 []).status.crcValid = false) ∧
    ((State.resetWith noStrip).cfg.hasStrip = false ∧ (State.resetWith noStrip).status.phase ≠ .fault) :=
  ⟨⟨inv_of_clauses (by decide +kernel), by decide⟩, by decide⟩

theorem witness_StripIsTheInPlaceLoop :
    let s := checked 0 [0, 1, 0, 0, 2, 0]
    s.Inv ∧ s.cfg.hasStrip = true ∧ s.status.phase = .ready ∧ s.status.crcValid = true :=
  ⟨inv_of_clauses (by decide +kernel), by decide⟩

/-- The buffers of V37 and V38: the same samples that are not zero, elsewhere. -/
theorem witness_SilenceDoesNotMatter :
    let s := checked 0 [0, 0x1234, 0xABCD, 0]
    let u := checked 0 [0x1234, 0, 0, 0xABCD]
    s.Inv ∧ u.Inv ∧ s.cfg.hasStrip = true ∧ u.cfg.hasStrip = true ∧ s.status.phase = .ready ∧
    u.status.phase = .ready ∧ s.status.crcValid = true ∧ u.status.crcValid = true ∧
    s.samples.filter (fun x => x ≠ 0) = u.samples.filter (fun x => x ≠ 0) ∧ s.samples ≠ u.samples :=
  ⟨inv_of_clauses (by decide +kernel), inv_of_clauses (by decide +kernel), by decide⟩

/-- V32. -/
theorem witness_StripOfSoundingTrack :
    let s := checked 0 [1, 2, 3, 4]
    s.Inv ∧ s.Truthful ∧ s.cfg.hasStrip = true ∧ s.status.phase = .ready ∧ s.status.crcValid = true ∧
    ∀ x ∈ s.samples, x ≠ 0 :=
  ⟨inv_of_clauses (by decide +kernel),
    checked_truthful _ _ (by decide), rfl, rfl, rfl, fun x hx =>
      of_decide_eq_true (List.all_eq_true.mp (by decide :
        (checked 0 [1, 2, 3, 4]).samples.all (fun x => decide (x ≠ 0)) = true) x hx)⟩

theorem witness_ArcrcIsBothPasses :
    (ready 0x302 [0x1234, 0xABCD]).Inv ∧ (ready 0x302 [0x1234, 0xABCD]).status.phase = .ready ∧
    (ready 0x302 [0x1234, 0xABCD]).status.posValid = true ∧ State.reset.status.phase ≠ .ready ∧
    State.reset.status.phase ≠ .fault ∧ (ready 0 []).status.phase = .ready ∧ (ready 0 []).status.posValid = false :=
  ⟨inv_of_clauses (by decide), by decide⟩

/-- A schedule that mixes the two engines and ends with both ended. -/
theorem witness_EveryInterleavingAgrees :
    let s := ready 0x302 [0x1234, 0xABCD]
    s.Inv ∧ s.status.phase = .ready ∧ s.status.posValid = true ∧
    ((Engines.start s.frames s.bytes).run (windowOf s.pos s.nframes)
      [.crc32, .accurateRip, .crc32, .crc32, .accurateRip, .crc32]).joined = true := ⟨inv_of_clauses (by decide), by decide +kernel⟩

theorem witness_RepeatedReadsChangeNothing :
    (∃ t, exec .nop faulted = .next t) ∧ (∃ t, exec (.get .skip) faulted = .next t) ∧
    (∃ t, exec (.peekf 0) (ready 0 [1, 2]) = .next t) ∧ (∃ t, exec .ar (ready 0x101 []) = .next t) ∧
    (∃ t, exec .crc (ready 0 []) = .next t) ∧ (∃ t, exec .arcrc (ready 0x101 []) = .next t) :=
  ⟨⟨_, rfl⟩, ⟨_, rfl⟩, ⟨_, rfl⟩, ⟨_, rfl⟩, ⟨_, rfl⟩, ⟨_, rfl⟩⟩

/-- The example of 40_load_pack R73: bytes 34 12 CD AB. -/
theorem witness_SamplesAreLittleEndian :
    (loading [0x1234, 0xABCD]).BufferOk ∧ (loading [0x1234, 0xABCD]).samples[1]? = some 0xABCD ∧
    (loading [0x1234, 0xABCD]).buf.readByte 2 = some 0xCD ∧ (loading [0x1234, 0xABCD]).buf.readByte 4 = none := by
  decide

theorem witness_StepKeepsCanonicalForm :
    (with32 (loading [1]) 0x3000ABCD).buf.wf ∧ ∃ t, step (with32 (loading [1]) 0x3000ABCD) = .next t :=
  ⟨by decide, _, rfl⟩

theorem witness_OtherCommandsLeaveTheBuffer :
    ∃ t, exec .sealBuffer (loading [1, 2]) = .next t ∧
      (t.status.phase = .fault → (loading [1, 2]).status.phase = .fault) := ⟨_, rfl, by decide⟩

theorem witness_ReadyBufferIsImmutable :
    let s := with32 (ready 0x302 [1, 2]) 0x50000000
    s.status.phase = .ready ∧ (after (step s)).map (fun t => t.status.phase) = some .ready := by decide

theorem witness_ResetMeetsInvariant : Config.standard.InRange ∧ smallest.InRange ∧ Config.InRange ⟨2 ^ 29, false⟩ := by
  decide

/-- One state of each phase. -/
theorem witness_StepKeepsInvariant :
    (with32 State.reset 0x30000000).Inv ∧ (with32 (checked 0x302 [1, 2]) 0x80000000).Inv ∧
    (with32 (stripped [1, 2]) 0x50000000).Inv ∧ (with32 faulted 0x10000000).Inv ∧
    (∃ t, step (with32 State.reset 0x30000000) = .next t) :=
  ⟨inv_of_clauses (by decide), inv_of_clauses (by decide +kernel), inv_of_clauses (by decide +kernel), inv_of_clauses (by decide), _, rfl⟩

theorem witness_FlagsStayTruthful :
    (with32 (checked 0x302 [1, 2]) 0x80000000).Inv ∧ (with32 (stripped [1, 2]) 0x90000000).Inv ∧
    (with32 (checked 0x302 [1, 2]) 0x80000000).Truthful ∧ (with32 (stripped [1, 2]) 0x90000000).Truthful ∧
    (after (step (with32 (checked 0x302 [1, 2]) 0x80000000))).isSome = true :=
  ⟨inv_of_clauses (by decide +kernel), inv_of_clauses (by decide +kernel), by decide +kernel⟩

theorem witness_EveryStepCompletes :
    State.reset.Inv ∧ (with32 (checked 0x302 [1, 2]) 0x80000000).Inv ∧ (with32 (stripped [1, 2]) 0x50000000).Inv ∧
    (with32 faulted 0x10000001).Inv :=
  ⟨inv_of_clauses (by decide), inv_of_clauses (by decide +kernel), inv_of_clauses (by decide +kernel), inv_of_clauses (by decide)⟩

end Sys2Proof.Tests
end

