-- ==== Sys2Proof/Proofs/Response.lean ====
section
/-! PROOFS. The response of a transaction (spec/00_scope.md R8, spec/43_sequencing.md R116): every command, every error
taken and every ignored word ends in `State.respond`, which copies `STATUS.ERR` out of the very state it is written to;
only `GET` and `PEEKF` give it a value. -/

namespace Sys2Proof.Machine

/-- `t` is some state with a response put on it, whose `DATA` is 0 unless the command is a `GET` or a `PEEKF`
(43_sequencing R116). -/
abbrev EndsInResponse (i : Instr) (t : State) : Prop :=
  ∃ (u : State) (d : Word), t = u.respond d ∧ (d ≠ 0 → (∃ r, i = .get r) ∨ ∃ j, i = .peekf j)

theorem endsInResponse_respond_zero (i : Instr) (u : State) : EndsInResponse i (u.respond 0) :=
  ⟨u, 0, rfl, fun h0 => absurd rfl h0⟩

/-- An ignored word and an error taken both answer with `DATA` 0 (60_exceptions R130, R132). -/
theorem IgnoredOrRaised.eq_respond_zero {s t : State} (h : IgnoredOrRaised s t) : ∃ u : State, t = u.respond 0 := by
  rcases h with ⟨-, rfl⟩ | ⟨-, e, info, rfl, -⟩
  · exact ⟨s, rfl⟩
  · exact ⟨s.enterFault e info, rfl⟩

/-- The reads `GET` and `PEEKF` answer with their value; every other end of a command answers with `DATA` 0. -/
theorem exec_endsInResponse {i : Instr} {s t : State} (h : exec i s = .next t) : EndsInResponse i t := by
  rcases exec_next h with hend | ⟨-, rfl⟩ | ⟨-, rfl⟩ | hget | ⟨_, _, -, -, -, rfl⟩ | ⟨_, -, -, -, -, rfl⟩ |
    ⟨-, -, -, rfl⟩ | hpeekf | ⟨-, -, -, _, -, rfl⟩ | ⟨-, -, _, -, rfl⟩ | ⟨-, -, -, _, _, -, -, rfl⟩ |
    ⟨-, -, -, -, _, -, rfl⟩
  on_goal 8 =>
    obtain ⟨j, w, hi, -, -, -, ht⟩ := hpeekf
    exact ⟨s, w, ht, fun _ => .inr ⟨j, hi⟩⟩
  on_goal 4 =>
    obtain ⟨r, hi, ht⟩ := hget
    exact ⟨s, s.readReg r, ht, fun _ => .inl ⟨r, hi⟩⟩
  on_goal 1 => obtain ⟨u, rfl⟩ := hend.eq_respond_zero
  all_goals exact endsInResponse_respond_zero i _

/-- Settles O13, by the two ways a presented word is answered: it decodes to a command, whose end is a response, or it
is no command and is ignored or raises. -/
theorem responseCarriesStatusError : Obligations.ResponseCarriesStatusError := by
  unfold Obligations.ResponseCarriesStatusError
  intro s t w hw hstep
  rcases step_next hstep with ⟨hnone, -⟩ | ⟨w', hw', ⟨i, hdec, hexec⟩ | ⟨-, hend⟩⟩
  · cases hw.symm.trans hnone
  · obtain rfl : w = w' := Option.some.inj (hw.symm.trans hw')
    obtain ⟨u, d, rfl, hd⟩ := exec_endsInResponse hexec
    exact ⟨d, u.respond_rsp d, fun h0 => ⟨i, hdec, hd h0⟩⟩
  · obtain ⟨u, rfl⟩ := hend.eq_respond_zero
    exact ⟨0, u.respond_rsp 0, fun h0 => absurd rfl h0⟩

end Sys2Proof.Machine
end

