-- ==== Sys2Proof/Proofs/StateEffect.lean ====
section
/-! PROOFS. What a command does when it is performed, as one inductive predicate with a named case per command. It is
`exec_next` of Laws/Exec.lean in a form whose cases a proof can name; `exec_effect` and `step_effect` tie it to the
model. -/

namespace Sys2Proof.Machine

/-- `Effect s i t`: command `i` performed at `s`, neither ignored nor raising, answers `t` (the rules of
40_load_pack R74 to R77, 41_accuraterip R85, 42_crc32 R100 and R102, 43_sequencing R111 to R114). -/
inductive Effect (s : State) : Instr → State → Prop where
  | nop : Effect s .nop (s.respond 0)
  | clear : Effect s .clear (s.cleared.respond 0)
  | get (r : Reg) : Effect s (.get r) (s.respond (s.readReg r))
  | setpos (a b : BitVec 8) (hload : s.status.phase = .load) (hbounds : posInBounds a b = true) :
      Effect s (.setpos a b)
        (State.respond { s with pos := posWord a b, status := { s.status with posValid := true } } 0)
  | push (x : Sample) (hload : s.status.phase = .load) (hroom : 2 * s.nsamp.toNat + 2 ≤ 2 * s.cfg.cap.toNat) :
      Effect s (.push x)
        (State.respond { s with
          buf := s.buf.writeBytes (2 * s.nsamp.toNat) (sampleBytes x), nsamp := s.nsamp + 1 } 0)
  | sealBuffer (hload : s.status.phase = .load) (heven : s.nsamp.getLsbD 0 = false) :
      Effect s .sealBuffer
        (State.respond { s with nframes := s.nsamp / 2, status := { s.status with phase := .ready } } 0)
  | peekf (j : BitVec 28) (w : Word) (hready : s.status.phase = .ready) : Effect s (.peekf j) (s.respond w)
  | ar (bs : List Byte) (hready : s.status.phase = .ready) (hpos : s.status.posValid = true)
      (hframes : s.loadBytes 0 (4 * s.nframes.toNat) = .ok bs) :
      Effect s .ar ((s.arFrom (framesOf bs)).respond 0)
  | crc (cs : List Byte) (hready : s.status.phase = .ready) (hbytes : s.loadBytes 0 (2 * s.nsamp.toNat) = .ok cs) :
      Effect s .crc ((s.writeCrc (crc32Of cs)).respond 0)
  | arcrc (bs cs : List Byte) (hready : s.status.phase = .ready) (hpos : s.status.posValid = true)
      (hframes : s.loadBytes 0 (4 * s.nframes.toNat) = .ok bs)
      (hbytes : s.loadBytes 0 (2 * s.nsamp.toNat) = .ok cs) :
      Effect s .arcrc (((s.arFrom (framesOf bs)).writeCrc (crc32Of cs)).respond 0)
  | strip (cs : List Byte) (hbuilt : s.cfg.hasStrip = true) (hready : s.status.phase = .ready)
      (hcrc : s.status.crcValid = true) (hbytes : s.loadBytes 0 (2 * s.nsamp.toNat) = .ok cs) :
      Effect s .strip ((s.writeStripped (strip (samplesOf cs))).respond 0)

/-- A command that answers a next state is ignored, raises, or is performed. -/
theorem exec_effect {i : Instr} {s t : State} (h : exec i s = .next t) : IgnoredOrRaised s t ∨ Effect s i t := by
  rcases exec_next h with hend | ⟨rfl, rfl⟩ | ⟨rfl, rfl⟩ | ⟨r, rfl, rfl⟩ | ⟨a, b, rfl, hload, hbounds, rfl⟩ |
    ⟨x, rfl, hload, -, hroom, rfl⟩ | ⟨rfl, hload, heven, rfl⟩ | ⟨j, w, rfl, hready, -, -, rfl⟩ |
    ⟨rfl, hready, hpos, bs, hbs, rfl⟩ | ⟨rfl, hready, cs, hcs, rfl⟩ | ⟨rfl, hready, hpos, bs, cs, hbs, hcs, rfl⟩ |
    ⟨rfl, hbuilt, hready, hcrc, cs, hcs, rfl⟩
  · exact .inl hend
  · exact .inr .nop
  · exact .inr .clear
  · exact .inr (.get r)
  · exact .inr (.setpos a b hload hbounds)
  · exact .inr (.push x hload hroom)
  · exact .inr (.sealBuffer hload heven)
  · exact .inr (.peekf j w hready)
  · exact .inr (.ar bs hready hpos hbs)
  · exact .inr (.crc cs hready hcs)
  · exact .inr (.arcrc bs cs hready hpos hbs hcs)
  · exact .inr (.strip cs hbuilt hready hcrc hcs)

/-- A step idles where nothing is presented; otherwise the index moves past the word, which is ignored, raises, or is a
command performed. -/
theorem step_effect {s t : State} (h : step s = .next t) :
    (s.presented = none ∧ t = s) ∨
    ∃ w, s.presented = some w ∧ (IgnoredOrRaised s.advance t ∨ ∃ i, Effect s.advance i t) := by
  rcases step_next h with hidle | ⟨w, hw, ⟨i, -, hexec⟩ | ⟨-, hend⟩⟩
  · exact .inl hidle
  · exact .inr ⟨w, hw, (exec_effect hexec).imp id fun heff => ⟨i, heff⟩⟩
  · exact .inr ⟨w, hw, .inl hend⟩

end Sys2Proof.Machine
end

