-- ==== Sys2Proof/Proofs/StateInvariant.lean ====
section
/-! PROOFS. The invariant of 10_state R35 and the truth of the validity flags (10_state R17): each holds after reset,
each named update of the state keeps it, and so does every step. -/

namespace Sys2Proof.Machine

/-! ### The phases

One clause of `PhaseOk` speaks of each phase; the others do not apply. -/

theorem State.PhaseOk.of_load {s : State} (hload : s.status.phase = .load)
    (h : s.nframes = 0 ∧ s.status.arValid = false ∧ s.status.crcValid = false ∧ s.status.ssValid = false) :
    s.PhaseOk := by
  simp [State.PhaseOk, hload, h]

theorem State.PhaseOk.of_ready {s : State} (hready : s.status.phase = .ready)
    (h : s.nsamp.toNat = 2 * s.nframes.toNat ∧ s.status.ssValid = false) : s.PhaseOk := by
  simp [State.PhaseOk, hready, h]

theorem State.PhaseOk.of_stripped {s : State} (hstripped : s.status.phase = .stripped)
    (h : s.status.ssValid = true ∧ s.status.crcValid = true ∧ s.nsamp.toNat ≤ 2 * s.nframes.toNat ∧
      s.cfg.hasStrip = true) : s.PhaseOk := by
  simp [State.PhaseOk, hstripped, h]

theorem State.FaultOk.of_ne {s : State} (h : s.status.phase ≠ .fault) : s.FaultOk := fun hf => absurd hf h

/-! ### The invariant, update by update -/

theorem State.resetWith_inv {cfg : Config} (h : cfg.InRange) : (State.resetWith cfg).Inv :=
  ⟨rfl, ⟨h, Nat.zero_le _, Nat.zero_le _⟩, by simp [State.ErrorOk, State.resetWith, Status.initial],
    by simp [State.PosOk, State.resetWith, Status.initial], by simp [State.PhaseOk, State.resetWith, Status.initial],
    by simp [State.FaultOk, State.resetWith, Status.initial], by simp [State.ResultOk, State.resetWith, Status.initial],
    by simp [State.PortOk, State.resetWith]⟩

theorem State.Inv.respond {s : State} (h : s.Inv) (d : Word) : (s.respond d).Inv := by
  obtain ⟨hbuf, hcap, herr, hpos, hphase, hfault, hres, -, hpc⟩ := h
  exact ⟨hbuf, hcap, herr, hpos, hphase, hfault, hres, by simp, hpc⟩

/-- A presented word lies inside the host's list, so the index moved past it does not leave the list. -/
theorem State.Inv.advance {s : State} {w : Word} (h : s.Inv) (hw : s.presented = some w) : s.advance.Inv := by
  obtain ⟨hbuf, hcap, herr, hpos, hphase, hfault, hres, hrsp, -⟩ := h
  obtain ⟨hlt, -⟩ := List.getElem?_eq_some_iff.mp hw
  exact ⟨hbuf, hcap, herr, hpos, hphase, hfault, hres, hrsp, hlt⟩

/-- Fault entry meets the invariant whatever the registers held (60_exceptions R130). -/
theorem State.Inv.enterFault {s : State} {e : ErrorKind} (h : s.Inv) (info : Word)
    (he : e ≠ .unsupportedFormat ∧ e ≠ .ioError ∧ e ≠ .concurrencyFailure) :
    ((s.enterFault e info).respond 0).Inv := by
  obtain ⟨-, ⟨hrange, -⟩, -, -, -, -, -, -, hpc⟩ := h
  exact ⟨rfl, ⟨hrange, by simp⟩, by simpa [State.ErrorOk, Status.faulted] using he,
    by simp [State.PosOk, Status.faulted], by simp [State.PhaseOk, Status.faulted],
    by simp [State.FaultOk, Status.faulted], by simp [State.ResultOk, Status.faulted], by simp, hpc⟩

/-- `CLEAR` gives every register its reset value and keeps the host's list and index (43_sequencing R113). -/
theorem State.Inv.cleared {s : State} (h : s.Inv) : (s.cleared.respond 0).Inv := by
  obtain ⟨-, ⟨hrange, -⟩, -, -, -, -, -, -, hpc⟩ := h
  obtain ⟨hbuf, hcap, herr, hpos, hphase, hfault, hres, -⟩ := State.resetWith_inv hrange
  exact ⟨hbuf, hcap, herr, hpos, hphase, hfault, hres, by simp, hpc⟩

/-- The upper half of `POS` stays 0 (10_state R22). -/
theorem posWord_upper (track total : BitVec 8) : (posWord track total).extractLsb' 16 16 = 0 := by
  apply BitVec.eq_of_toNat_eq
  simp [posWord, Nat.shiftRight_eq_div_pow]
  omega

theorem State.Inv.setpos {s : State} {a b : BitVec 8} (h : s.Inv) (hload : s.status.phase = .load)
    (hbounds : posInBounds a b = true) :
    State.Inv { s with pos := posWord a b, status := { s.status with posValid := true } } := by
  obtain ⟨hbuf, hcap, herr, -, hphase, -, hres, hport⟩ := h
  obtain ⟨-, har, -⟩ := hphase.1 hload
  obtain ⟨htotal, htotal', htrack, htrack'⟩ := (posInBounds_iff a b).mp hbounds
  refine ⟨hbuf, hcap, herr, ⟨fun _ => ?_, fun hv => Bool.noConfusion hv, posWord_upper a b⟩, hphase,
    State.FaultOk.of_ne (by simp [hload]), ⟨fun hv => ?_, hres.2⟩, hport⟩
  · simp only [posTrack_posWord, posTotal_posWord]
    exact ⟨htrack, htrack', htotal'⟩
  · cases har.symm.trans hv

/-- Below the capacity the count does not wrap. -/
theorem nsamp_succ_toNat {n : Word} {cap : Nat} (hroom : n.toNat + 1 ≤ cap) (hcap : cap ≤ 2 ^ 29) :
    (n + 1).toNat = n.toNat + 1 := by
  bv_omega

theorem State.Inv.push {s : State} (h : s.Inv) (x : Sample) (hload : s.status.phase = .load)
    (hroom : 2 * s.nsamp.toNat + 2 ≤ 2 * s.cfg.cap.toNat) :
    State.Inv { s with
      buf := s.buf.writeBytes (2 * s.nsamp.toNat) (sampleBytes x), nsamp := s.nsamp + 1 } := by
  obtain ⟨hbuf, ⟨hrange, -, hframes⟩, herr, hpos, hphase, -, hres, hport⟩ := h
  have hcount : (s.nsamp + 1).toNat = s.nsamp.toNat + 1 := nsamp_succ_toNat (by omega) hrange.2
  refine ⟨?_, ⟨hrange, ?_, hframes⟩, herr, hpos, State.PhaseOk.of_load hload (hphase.1 hload),
    State.FaultOk.of_ne (by simp [hload]), hres, hport⟩
  · show (s.buf.writeBytes _ _).map Prod.fst = List.range (2 * (s.nsamp + 1).toNat)
    rw [Memory.writeBytes_sample x hbuf, List.map_append, hbuf, hcount, Nat.mul_succ, List.range_succ, List.range_succ]
    simp
  · show (s.nsamp + 1).toNat ≤ s.cfg.cap.toNat
    omega

/-- The halving of `SEAL` is exact where it does not raise (40_load_pack R76). -/
theorem toNat_eq_two_mul_half {n : Word} (heven : n.getLsbD 0 = false) : n.toNat = 2 * (n / 2).toNat := by
  have hmod : n.toNat % 2 = 0 := by simpa [BitVec.getLsbD, Nat.testBit_zero] using heven
  rw [BitVec.toNat_udiv, show (2 : Word).toNat = 2 from rfl]
  omega

theorem State.Inv.sealBuffer {s : State} (h : s.Inv) (hload : s.status.phase = .load)
    (heven : s.nsamp.getLsbD 0 = false) :
    State.Inv { s with nframes := s.nsamp / 2, status := { s.status with phase := .ready } } := by
  obtain ⟨hbuf, ⟨hrange, hcap, -⟩, ⟨herr, herr'⟩, hpos, ⟨hphase, -⟩, -, hres, hport⟩ := h
  have hhalf := toNat_eq_two_mul_half heven
  obtain ⟨-, -, -, hss⟩ := hphase hload
  have hnone : s.status.err = none := by simpa [hload] using herr
  refine ⟨hbuf, ⟨hrange, hcap, hhalf ▸ hcap⟩, ⟨?_, herr'⟩, hpos,
    State.PhaseOk.of_ready rfl ⟨hhalf, hss⟩, State.FaultOk.of_ne (by simp), hres, hport⟩
  simp [hnone]

/-- The lower end of the window is one of two constants (41_accuraterip R86). -/
theorem windowOf_sumFrom_cases (pos n : Word) :
    BitVec.ofInt 32 (windowOf pos n).sumFrom = 0 ∨ BitVec.ofInt 32 (windowOf pos n).sumFrom = 2940 := by
  rw [windowOf_eq]
  dsimp only
  split
  · exact .inr rfl
  · exact .inl rfl

theorem State.Inv.arFrom {s : State} (h : s.Inv) (fs : List Word) (hready : s.status.phase = .ready)
    (hpos : s.status.posValid = true) : (s.arFrom fs).Inv := by
  obtain ⟨hbuf, hcap, herr, hposOk, hphase, -, ⟨-, -, -, hres⟩, hport⟩ := h
  exact ⟨hbuf, hcap, herr, hposOk, State.PhaseOk.of_ready hready (hphase.2.1 hready),
    State.FaultOk.of_ne (by simp [hready]), ⟨fun _ => ⟨hpos, rfl, rfl⟩, fun hv => Bool.noConfusion hv,
      windowOf_sumFrom_cases s.pos s.nframes, hres⟩, hport⟩

theorem State.Inv.writeCrc {s : State} (h : s.Inv) (v : Word) (hready : s.status.phase = .ready) :
    (s.writeCrc v).Inv := by
  obtain ⟨hbuf, hcap, herr, hpos, hphase, -, ⟨harSet, harClear, hfrom, -, hss⟩, hport⟩ := h
  exact ⟨hbuf, hcap, herr, hpos, State.PhaseOk.of_ready hready (hphase.2.1 hready),
    State.FaultOk.of_ne (by simp [hready]), ⟨harSet, harClear, hfrom, fun hv => Bool.noConfusion hv, hss⟩, hport⟩

/-- Any survivors no more than the samples there were make a good stripped state (42_crc32 R102). -/
theorem State.Inv.writeStripped {s : State} (h : s.Inv) {kept : List Sample} (hbuilt : s.cfg.hasStrip = true)
    (hready : s.status.phase = .ready) (hcrc : s.status.crcValid = true) (hkept : kept.length ≤ s.nsamp.toNat) :
    (s.writeStripped kept).Inv := by
  obtain ⟨-, ⟨hrange, hcap, hframes⟩, ⟨herr, herr'⟩, hpos, hphase, -,
    ⟨harSet, harClear, hfrom, hcrcClear, -⟩, hport⟩ := h
  have hcount : (BitVec.ofNat 32 kept.length).toNat = kept.length :=
    Nat.mod_eq_of_lt (Nat.lt_of_le_of_lt hkept s.nsamp.isLt)
  have hnone : s.status.err = none := by simpa [hready] using herr
  obtain ⟨hsealed, -⟩ := hphase.2.1 hready
  refine ⟨?_, ⟨hrange, ?_, hframes⟩, ⟨?_, herr'⟩, hpos, State.PhaseOk.of_stripped rfl ⟨rfl, hcrc, ?_, hbuilt⟩,
    State.FaultOk.of_ne (by simp), ⟨harSet, harClear, hfrom, hcrcClear, fun hv => Bool.noConfusion hv⟩, hport⟩
  · show (Memory.ofBytes 0 (bytesOf kept)).map Prod.fst = List.range (2 * (BitVec.ofNat 32 kept.length).toNat)
    rw [Memory.map_fst_ofBytes, bytesOf_length, hcount, List.range_eq_range']
  · rw [State.writeStripped_nsamp, hcount]
    exact hkept.trans hcap
  · simp [hnone]
  · rw [State.writeStripped_nsamp, hcount]
    exact hkept.trans_eq hsealed

/-! ### The invariant, step by step -/

theorem IgnoredOrRaised.inv {s t : State} (hend : IgnoredOrRaised s t) (h : s.Inv) : t.Inv := by
  rcases hend with ⟨-, rfl⟩ | ⟨-, e, info, rfl, he⟩
  · exact h.respond 0
  · exact h.enterFault info he

theorem Effect.inv {s t : State} {i : Instr} (heff : Effect s i t) (h : s.Inv) : t.Inv := by
  cases heff with
  | nop => exact h.respond 0
  | clear => exact h.cleared
  | get r => exact h.respond (s.readReg r)
  | setpos a b hload hbounds => exact (h.setpos hload hbounds).respond 0
  | push x hload hroom => exact (h.push x hload hroom).respond 0
  | sealBuffer hload heven => exact (h.sealBuffer hload heven).respond 0
  | peekf j w hready => exact h.respond w
  | ar bs hready hpos hframes => exact (h.arFrom (framesOf bs) hready hpos).respond 0
  | crc cs hready hbytes => exact (h.writeCrc (crc32Of cs) hready).respond 0
  | arcrc bs cs hready hpos hframes hbytes =>
    exact ((h.arFrom (framesOf bs) hready hpos).writeCrc (crc32Of cs) hready).respond 0
  | strip cs hbuilt hready hcrc hbytes =>
    obtain rfl : cs = s.bytes := Except.ok.inj (hbytes.symm.trans (h.loadBytes_ready hready).2)
    have hkept := strip_length_le s.samples
    rw [h.1.samples_length] at hkept
    exact (h.writeStripped hbuilt hready hcrc hkept).respond 0

/-- Settles O56, by the ways a step answers a next state: nothing is presented, or the index moves and the word is
ignored, raises, or is a command performed. -/
theorem stepKeepsInvariant : Obligations.StepKeepsInvariant := by
  unfold Obligations.StepKeepsInvariant
  intro s t h hstep
  rcases step_effect hstep with ⟨-, rfl⟩ | ⟨w, hw, hend | ⟨i, heff⟩⟩
  · exact h
  · exact hend.inv (h.advance hw)
  · exact heff.inv (h.advance hw)

/-! ### The promises of the flags, update by update -/

/-- In LOAD and in FAULT the flags promise nothing. -/
theorem State.Truthful.of_phase {s : State} (hready : s.status.phase ≠ .ready)
    (hstripped : s.status.phase ≠ .stripped) : s.Truthful :=
  ⟨fun hp => absurd hp hready, fun hp => absurd hp hready, fun hp => absurd hp hstripped⟩

/-- The promises do not speak of the response. -/
theorem State.Truthful.respond {s : State} (h : s.Truthful) (d : Word) : (s.respond d).Truthful := h

/-- The promises do not speak of the host's index. -/
theorem State.Truthful.advance {s : State} (h : s.Truthful) : s.advance.Truthful := h

/-- A freshly sealed buffer has no flag set that could lie. -/
theorem State.Inv.sealBuffer_truthful {s : State} (h : s.Inv) (hload : s.status.phase = .load) :
    State.Truthful { s with nframes := s.nsamp / 2, status := { s.status with phase := .ready } } := by
  obtain ⟨-, -, -, -, ⟨hphase, -⟩, -⟩ := h
  obtain ⟨-, har, hcrc, -⟩ := hphase hload
  refine ⟨fun _ hv => ?_, fun _ hv => ?_, fun hs => Phase.noConfusion hs⟩
  · cases hcrc.symm.trans hv
  · cases har.symm.trans hv

theorem State.Truthful.arFrom_frames {s : State} (h : s.Truthful) : (s.arFrom s.frames).Truthful := by
  obtain ⟨hcrc, -, hss⟩ := h
  exact ⟨hcrc, fun _ _ => ⟨rfl, rfl, rfl, rfl⟩, hss⟩

theorem State.Truthful.writeCrc_bytes {s : State} (h : s.Truthful) : (s.writeCrc (crc32Of s.bytes)).Truthful := by
  obtain ⟨-, har, hss⟩ := h
  exact ⟨fun _ _ => rfl, har, hss⟩

/-- The bytes left after `STRIP` are those of the survivors. -/
theorem State.writeStripped_bytes (s : State) (kept : List Sample) : (s.writeStripped kept).bytes = bytesOf kept :=
  Memory.map_snd_ofBytes 0 (bytesOf kept)

theorem State.writeStripped_truthful (s : State) (kept : List Sample) : (s.writeStripped kept).Truthful :=
  ⟨fun hr => Phase.noConfusion hr, fun hr => Phase.noConfusion hr,
    fun _ => congrArg crc32Of (s.writeStripped_bytes kept).symm⟩

/-! ### The promises of the flags, step by step -/

theorem IgnoredOrRaised.truthful {s t : State} (hend : IgnoredOrRaised s t) (h : s.Truthful) : t.Truthful := by
  rcases hend with ⟨-, rfl⟩ | ⟨-, e, info, rfl, -⟩
  · exact h.respond 0
  · exact .of_phase (by simp [Status.faulted]) (by simp [Status.faulted])

/-- The invariant gives the engines the buffer's own bytes, so what they write is what the flags promise. -/
theorem Effect.truthful {s t : State} {i : Instr} (heff : Effect s i t) (hinv : s.Inv) (h : s.Truthful) :
    t.Truthful := by
  cases heff with
  | nop => exact h.respond 0
  | clear => exact .of_phase (by simp [Status.initial]) (by simp [Status.initial])
  | get r => exact h.respond (s.readReg r)
  | setpos a b hload hbounds => exact .of_phase (by simp [hload]) (by simp [hload])
  | push x hload hroom => exact .of_phase (by simp [hload]) (by simp [hload])
  | sealBuffer hload heven => exact (hinv.sealBuffer_truthful hload).respond 0
  | peekf j w hready => exact h.respond w
  | ar bs hready hpos hframes =>
    obtain rfl : bs = s.bytes := Except.ok.inj (hframes.symm.trans (hinv.loadBytes_ready hready).1)
    exact h.arFrom_frames.respond 0
  | crc cs hready hbytes =>
    obtain rfl : cs = s.bytes := Except.ok.inj (hbytes.symm.trans (hinv.loadBytes_ready hready).2)
    exact h.writeCrc_bytes.respond 0
  | arcrc bs cs hready hpos hframes hbytes =>
    obtain rfl : bs = s.bytes := Except.ok.inj (hframes.symm.trans (hinv.loadBytes_ready hready).1)
    obtain rfl : cs = s.bytes := Except.ok.inj (hbytes.symm.trans (hinv.loadBytes_ready hready).2)
    exact h.arFrom_frames.writeCrc_bytes.respond 0
  | strip cs hbuilt hready hcrc hbytes => exact (s.writeStripped_truthful _).respond 0

/-- Settles O57, by the same ways a step answers, with the invariant beside the promises. -/
theorem flagsStayTruthful : Obligations.FlagsStayTruthful := by
  unfold Obligations.FlagsStayTruthful
  intro s t hinv h hstep
  rcases step_effect hstep with ⟨-, rfl⟩ | ⟨w, hw, hend | ⟨i, heff⟩⟩
  · exact h
  · exact hend.truthful h.advance
  · exact heff.truthful (hinv.advance hw) h.advance

/-! ### Reset -/

/-- Settles O55: the eight clauses at the reset values, and LOAD, where the flags promise nothing. -/
theorem resetMeetsInvariant : Obligations.ResetMeetsInvariant := by
  unfold Obligations.ResetMeetsInvariant
  intro cfg hrange
  have hload : (State.resetWith cfg).status.phase = .load := rfl
  exact ⟨State.resetWith_inv hrange, .of_phase (by simp [hload]) (by simp [hload])⟩

end Sys2Proof.Machine
end

