-- ==== Sys2Proof/Proofs/StateFrame.lean ====
section
/-! PROOFS. What a command and a step leave unchanged: the host's harness (10_state R16), the registers a command is
not listed as writing (R14), the constants (R29), the flags of other commands (R19), the canonical form of the buffer
(R30) and the sealed buffer while the phase stays READY (R18); and the layout of the status word (R17). -/

namespace Sys2Proof.Machine

/-! ### The register frame -/

@[simp] theorem State.readReg_respond (s : State) (d : Word) (r : Reg) : (s.respond d).readReg r = s.readReg r := by
  cases r <;> rfl

theorem State.readReg_arFrom {r : Reg} (s : State) (fs : List Word) (h : writesReg .ar r = false) :
    (s.arFrom fs).readReg r = s.readReg r := by
  cases r <;> simp_all [writesReg, State.readReg]

theorem State.readReg_writeCrc {r : Reg} (s : State) (v : Word) (h : writesReg .crc r = false) :
    (s.writeCrc v).readReg r = s.readReg r := by
  cases r <;> simp_all [writesReg, State.readReg]

theorem State.readReg_writeStripped {r : Reg} (s : State) (kept : List Sample) (h : writesReg .strip r = false) :
    (s.writeStripped kept).readReg r = s.readReg r := by
  cases r <;> simp_all [writesReg, State.readReg]

/-- `ARCRC` writes what `AR` and `CRC` write (43_sequencing R112). -/
theorem writesReg_arcrc (r : Reg) : writesReg .arcrc r = (writesReg .ar r || writesReg .crc r) := by
  cases r <;> rfl

/-- The constants are the registers `CLEAR` does not write. -/
theorem State.readReg_cleared {r : Reg} (s : State) (h : writesReg .clear r = false) :
    s.cleared.readReg r = s.readReg r := by
  cases r <;> simp_all [writesReg, State.readReg]

theorem Effect.readReg {s t : State} {i : Instr} {r : Reg} (heff : Effect s i t) (h : writesReg i r = false) :
    t.readReg r = s.readReg r := by
  cases heff with
  | nop => exact s.readReg_respond 0 r
  | clear => rw [State.readReg_respond, s.readReg_cleared h]
  | get q => exact s.readReg_respond _ r
  | setpos a b hload hbounds => rw [State.readReg_respond]; cases r <;> simp_all [writesReg, State.readReg]
  | push x hload hroom => rw [State.readReg_respond]; cases r <;> simp_all [writesReg, State.readReg]
  | sealBuffer hload heven => rw [State.readReg_respond]; cases r <;> simp_all [writesReg, State.readReg]
  | peekf j w hready => exact s.readReg_respond w r
  | ar bs hready hpos hframes => rw [State.readReg_respond, s.readReg_arFrom _ h]
  | crc cs hready hbytes => rw [State.readReg_respond, s.readReg_writeCrc _ h]
  | arcrc bs cs hready hpos hframes hbytes =>
    obtain ⟨har, hcrc⟩ := Bool.or_eq_false_iff.mp ((writesReg_arcrc r).symm.trans h)
    rw [State.readReg_respond, State.readReg_writeCrc _ _ hcrc, s.readReg_arFrom _ har]
  | strip cs hbuilt hready hcrc hbytes => rw [State.readReg_respond, s.readReg_writeStripped _ h]

/-- Where FAULT is not entered, a command that is not performed is ignored, and only the response changes. -/
theorem IgnoredOrRaised.eq_respond {s t : State} (hend : IgnoredOrRaised s t)
    (hfault : t.status.phase = .fault → s.status.phase = .fault) : t = s.respond 0 := by
  rcases hend with ⟨-, rfl⟩ | ⟨hp, e, info, rfl, -⟩
  · rfl
  · exact absurd (hfault rfl) hp

/-- Settles O22, command by command over the named updates. -/
theorem registersChangeOnlyByTheirWriters : Obligations.RegistersChangeOnlyByTheirWriters := by
  unfold Obligations.RegistersChangeOnlyByTheirWriters
  refine ⟨by decide, fun i s t r hexec hfault hwrites => ?_⟩
  rcases exec_effect hexec with hend | heff
  · rw [hend.eq_respond hfault, State.readReg_respond]
  · exact heff.readReg hwrites

/-! ### The harness -/

/-- The same block beside another host: its list and its index (10_state R16). -/
def State.withHarness (q : List Word) (p : Nat) (s : State) : State := { s with program := q, pc := p }

/-- An outcome beside another host. -/
def withHarness (q : List Word) (p : Nat) : Result → Result
  | .next t => .next (t.withHarness q p)
  | .fault f => .fault f
  | .refused r => .refused r

section
variable (q : List Word) (p : Nat) (s : State)

theorem withHarness_raise (e : ErrorKind) (info : Word) :
    withHarness q p (raise e info s) = raise e info (s.withHarness q p) := rfl

theorem withHarness_ite (c : Prop) [Decidable c] (a b : Result) :
    withHarness q p (if c then a else b) = if c then withHarness q p a else withHarness q p b :=
  apply_ite (withHarness q p) c a b

theorem withHarness_unlessFault (r : Result) :
    withHarness q p (unlessFault s r) = unlessFault (s.withHarness q p) (withHarness q p r) :=
  withHarness_ite q p _ _ _

theorem withHarness_requirePhase (ph : Phase) (cmd : Word) (r : Result) :
    withHarness q p (requirePhase ph cmd s r) = requirePhase ph cmd (s.withHarness q p) (withHarness q p r) :=
  withHarness_ite q p _ _ _

theorem withHarness_requireFlag (b : Bool) (cmd : Word) (r : Result) :
    withHarness q p (requireFlag b cmd s r) = requireFlag b cmd (s.withHarness q p) (withHarness q p r) :=
  withHarness_ite q p _ _ _

theorem withHarness_finish (r : Except Fault State) :
    withHarness q p (finish r) = finish (r.map (State.withHarness q p)) := by
  cases r <;> rfl

/-- Two continuations that agree up to the host agree after the same read. -/
theorem map_withHarness {α : Type} {f g : α → State} (hfg : ∀ x, f x = (g x).withHarness q p) (r : Except Fault α) :
    r.map f = (r.map g).map (State.withHarness q p) := by
  cases r with
  | ok x => exact congrArg Except.ok (hfg x)
  | error e => rfl

theorem arEngine_withHarness : arEngine (s.withHarness q p) = (arEngine s).map (State.withHarness q p) :=
  map_withHarness q p (g := fun bs => s.arFrom (framesOf bs)) (fun _ => rfl) (s.loadBytes 0 (4 * s.nframes.toNat))

theorem crcEngine_withHarness : crcEngine (s.withHarness q p) = (crcEngine s).map (State.withHarness q p) :=
  map_withHarness q p (g := fun bs => s.writeCrc (crc32Of bs)) (fun _ => rfl) (s.loadBytes 0 (2 * s.nsamp.toNat))

theorem stripEngine_withHarness : stripEngine (s.withHarness q p) = (stripEngine s).map (State.withHarness q p) :=
  map_withHarness q p (g := fun bs => s.writeStripped (strip (samplesOf bs))) (fun _ => rfl)
    (s.loadBytes 0 (2 * s.nsamp.toNat))

theorem bothEngines_withHarness : bothEngines (s.withHarness q p) = (bothEngines s).map (State.withHarness q p) := by
  unfold bothEngines
  rw [arEngine_withHarness]
  cases arEngine s with
  | ok t => exact crcEngine_withHarness q p t
  | error f => rfl

theorem storeSample_withHarness (i : Nat) (x : Sample) :
    (s.withHarness q p).storeSample i x = (s.storeSample i x).map (State.withHarness q p) := by
  unfold State.storeSample
  rw [apply_ite (Except.map (State.withHarness q p))]
  rfl

/-- Every command commutes with the exchange of the host: its checks and its engines read neither list nor index. -/
theorem exec_withHarness (i : Instr) : exec i (s.withHarness q p) = withHarness q p (exec i s) := by
  cases i with
  | nop => rfl
  | clear => rfl
  | get r => cases r <;> rfl
  | setpos a b =>
    simp only [exec, execSetpos, withHarness_unlessFault, withHarness_requirePhase, withHarness_ite, withHarness_raise]
    rfl
  | push x =>
    simp only [exec, execPush, withHarness_unlessFault, withHarness_requirePhase, withHarness_ite, withHarness_raise,
      withHarness_finish]
    rw [show (s.withHarness q p).nsamp = s.nsamp from rfl, storeSample_withHarness]
    cases s.storeSample s.nsamp.toNat x <;> rfl
  | sealBuffer =>
    simp only [exec, execSeal, withHarness_unlessFault, withHarness_requirePhase, withHarness_ite, withHarness_raise]
    rfl
  | peekf j =>
    simp only [exec, execPeekf, withHarness_unlessFault, withHarness_requirePhase, withHarness_ite, withHarness_raise]
    rw [show (s.withHarness q p).frame j.toNat = s.frame j.toNat from rfl]
    cases s.frame j.toNat <;> rfl
  | ar =>
    simp only [exec, execAr, withHarness_unlessFault, withHarness_requirePhase, withHarness_requireFlag,
      withHarness_finish, arEngine_withHarness]
    rfl
  | crc =>
    simp only [exec, execCrc, withHarness_unlessFault, withHarness_requirePhase, withHarness_finish,
      crcEngine_withHarness]
  | arcrc =>
    simp only [exec, execArcrc, withHarness_unlessFault, withHarness_requirePhase, withHarness_requireFlag,
      withHarness_finish, bothEngines_withHarness]
    rfl
  | strip =>
    simp only [exec, execStrip, withHarness_unlessFault, withHarness_requirePhase, withHarness_requireFlag,
      withHarness_ite, withHarness_raise, withHarness_finish, stripEngine_withHarness]
    rfl

end

/-- Settles O12: `exec_withHarness`, with the outcome's three cases written out. -/
theorem commandsDoNotSeeTheHarness : Obligations.CommandsDoNotSeeTheHarness := by
  unfold Obligations.CommandsDoNotSeeTheHarness
  intro i s q p
  refine (exec_withHarness q p s i).trans ?_
  cases exec i s <;> rfl

/-- A command answers beside the host it was given: the special case of `exec_withHarness` at the state's own host. -/
theorem exec_harness {i : Instr} {s t : State} (h : exec i s = .next t) : t.pc = s.pc ∧ t.program = s.program := by
  have hself := exec_withHarness s.program s.pc s i
  rw [h] at hself
  have ht : t = t.withHarness s.program s.pc := Host.Outcome.next.inj (h.symm.trans hself)
  rw [ht]
  exact ⟨rfl, rfl⟩

theorem IgnoredOrRaised.harness {s t : State} (hend : IgnoredOrRaised s t) :
    t.pc = s.pc ∧ t.program = s.program := by
  rcases hend with ⟨-, rfl⟩ | ⟨-, e, info, rfl, -⟩
  · exact ⟨rfl, rfl⟩
  · exact ⟨rfl, rfl⟩

/-- Settles O11: the step itself moves the index, and neither a command nor fault entry touches the harness. -/
theorem indexAdvancesByOne : Obligations.IndexAdvancesByOne := by
  unfold Obligations.IndexAdvancesByOne
  refine ⟨rfl, fun s t w hw hstep => ?_⟩
  rcases step_next hstep with ⟨hnone, -⟩ | ⟨-, -, ⟨i, -, hexec⟩ | ⟨-, hend⟩⟩
  · cases hw.symm.trans hnone
  · exact exec_harness hexec
  · exact hend.harness

/-- Settles O5: the two branches of `step` that the hypotheses choose. -/
theorem stepRunsDecodedCommand : Obligations.StepRunsDecodedCommand := by
  unfold Obligations.StepRunsDecodedCommand
  intro s w i hw hdec
  have hpresented : s.presented = some w := hw
  simp only [step, hpresented, hdec]
  rfl

theorem placeCommand_getElem (w : Word) (l : List Word) (n : Nat) : (placeCommand w l n)[n]? = some w := by
  induction l, n using placeCommand.induct with
  | case1 => rfl
  | case2 n ih => simpa [placeCommand] using ih
  | case3 x t => rfl
  | case4 x t n ih => simpa [placeCommand] using ih

/-- Settles O7, by the recursion of `placeCommand`. -/
theorem placedWordIsPresented : Obligations.PlacedWordIsPresented := by
  unfold Obligations.PlacedWordIsPresented
  intro s nbits w
  exact placeCommand_getElem (commandWord nbits w) s.program s.pc

/-! ### The constants -/

theorem IgnoredOrRaised.cfg {s t : State} (hend : IgnoredOrRaised s t) : t.cfg = s.cfg := by
  rcases hend with ⟨-, rfl⟩ | ⟨-, e, info, rfl, -⟩
  · rfl
  · rfl

theorem Effect.cfg {s t : State} {i : Instr} (heff : Effect s i t) : t.cfg = s.cfg := by
  cases heff <;> rfl

theorem step_cfg {s t : State} (hstep : step s = .next t) : t.cfg = s.cfg := by
  rcases step_effect hstep with ⟨-, rfl⟩ | ⟨w, -, hend | ⟨i, heff⟩⟩
  · rfl
  · exact hend.cfg
  · exact heff.cfg

/-- `CONFIG` is `HAS_STRIP` in bit 0 and 0 above it (10_state R29). -/
theorem setWidth_ofBool_fields (b : Bool) :
    (BitVec.setWidth 32 (BitVec.ofBool b)).getLsbD 0 = b ∧
      (BitVec.setWidth 32 (BitVec.ofBool b)).extractLsb' 1 31 = 0 := by
  cases b <;> decide

/-- Settles O23: the three registers read the build's constants, which every step keeps. -/
theorem constantRegisters : Obligations.ConstantRegisters := by
  unfold Obligations.ConstantRegisters
  refine ⟨fun s => ?_, fun s t hstep => ?_, fun cfg => rfl⟩
  · obtain ⟨hbit, hrest⟩ := setWidth_ofBool_fields s.cfg.hasStrip
    exact ⟨rfl, hbit, hrest, rfl⟩
  · have hcfg := step_cfg hstep
    simp [State.readReg, hcfg]

/-! ### The flags -/

/-- Settles O24: a command not performed leaves the flags or clears all four; a performed one sets its own. -/
theorem flagsAreSetByTheirCommand : Obligations.FlagsAreSetByTheirCommand := by
  unfold Obligations.FlagsAreSetByTheirCommand
  intro i s t hexec
  rcases exec_effect hexec with (⟨-, rfl⟩ | ⟨hp, e, info, rfl, -⟩) | heff
  · simp +contextual
  · simp [Status.faulted, hp]
  · cases heff <;> simp +contextual [Status.initial]

/-! ### The buffer -/

theorem IgnoredOrRaised.buf_wf {s t : State} (hend : IgnoredOrRaised s t) (h : s.buf.wf) : t.buf.wf := by
  rcases hend with ⟨-, rfl⟩ | ⟨-, e, info, rfl, -⟩
  · exact h
  · exact List.Pairwise.nil

/-- Only `PUSH`, `STRIP` and `CLEAR` give the buffer other bytes. -/
theorem Effect.buf_wf {s t : State} {i : Instr} (heff : Effect s i t) (h : s.buf.wf) : t.buf.wf := by
  cases heff with
  | clear => exact List.Pairwise.nil
  | push x hload hroom => exact Memory.writeBytes_wf h _ _
  | strip cs hbuilt hready hcrc hbytes => exact Memory.ofBytes_wf 0 _
  | _ => exact h

/-- Settles O52: fault entry empties the buffer, and every other write keeps the addresses rising. -/
theorem stepKeepsCanonicalForm : Obligations.StepKeepsCanonicalForm := by
  unfold Obligations.StepKeepsCanonicalForm
  intro s t h hstep
  rcases step_effect hstep with ⟨-, rfl⟩ | ⟨w, -, hend | ⟨i, heff⟩⟩
  · exact h
  · exact hend.buf_wf h
  · exact heff.buf_wf h

/-- The contents a sealed buffer keeps: its bytes, its two counts and the position (10_state R18). -/
abbrev SameContents (s t : State) : Prop :=
  t.buf = s.buf ∧ t.nsamp = s.nsamp ∧ t.nframes = s.nframes ∧ t.pos = s.pos

/-- From READY, the commands that change the contents either raise or leave READY. -/
theorem Effect.sameContents {s t : State} {i : Instr} (heff : Effect s i t) (hs : s.status.phase = .ready)
    (ht : t.status.phase = .ready) : SameContents s t := by
  cases heff with
  | clear => cases ht
  | setpos a b hload hbounds => cases hload.symm.trans hs
  | push x hload hroom => cases hload.symm.trans hs
  | sealBuffer hload heven => cases hload.symm.trans hs
  | strip cs hbuilt hready hcrc hbytes => cases ht
  | _ => exact ⟨rfl, rfl, rfl, rfl⟩

/-- Settles O54: an error taken leaves READY too, and an ignored word changes the response only. -/
theorem readyBufferIsImmutable : Obligations.ReadyBufferIsImmutable := by
  unfold Obligations.ReadyBufferIsImmutable
  intro s t hstep hs ht
  rcases step_effect hstep with ⟨-, rfl⟩ | ⟨w, -, hend | ⟨i, heff⟩⟩
  · exact ⟨rfl, rfl, rfl, rfl⟩
  · rw [hend.eq_respond fun hf => by cases ht.symm.trans hf]
    exact ⟨rfl, rfl, rfl, rfl⟩
  · exact heff.sameContents hs ht

/-! ### The status word -/

/-- A bit of the status word lies in the field whose range it is in, from the most significant field down
(10_state R17). -/
theorem Status.word_getLsbD (st : Status) (i : Nat) :
    st.word.getLsbD i =
      if i < 12 then
        if i < 8 then
          if i < 6 then
            if i < 5 then
              if i < 4 then
                if i < 3 then if i < 2 then st.phase.code.getLsbD i else (BitVec.ofBool st.posValid).getLsbD (i - 2)
                else (BitVec.ofBool st.arValid).getLsbD (i - 3)
              else (BitVec.ofBool st.crcValid).getLsbD (i - 4)
            else (BitVec.ofBool st.ssValid).getLsbD (i - 5)
          else (0 : BitVec 2).getLsbD (i - 6)
        else st.errCode.getLsbD (i - 8)
      else (0 : BitVec 20).getLsbD (i - 12) := by
  unfold Status.word
  repeat erw [BitVec.getLsbD_append]

theorem Status.word_phase (st : Status) : st.word.extractLsb' 0 2 = st.phase.code := by
  ext i hi
  rw [BitVec.getElem_extractLsb', Status.word_getLsbD]
  interval_cases i <;> simp

theorem Status.word_flags (st : Status) :
    st.word.getLsbD 2 = st.posValid ∧ st.word.getLsbD 3 = st.arValid ∧ st.word.getLsbD 4 = st.crcValid ∧
      st.word.getLsbD 5 = st.ssValid := by
  simp only [Status.word_getLsbD]
  simp

theorem Status.word_errCode (st : Status) : st.word.extractLsb' 8 4 = st.errCode := by
  ext i hi
  rw [BitVec.getElem_extractLsb', Status.word_getLsbD]
  interval_cases i <;> simp

theorem Status.word_reserved (st : Status) :
    st.word.extractLsb' 6 2 = 0 ∧ st.word.extractLsb' 12 20 = 0 := by
  constructor
  · ext i hi
    rw [BitVec.getElem_extractLsb', Status.word_getLsbD]
    interval_cases i <;> simp
  · ext i hi
    simp [Status.word_getLsbD]

/-- Settles O20, field by field. -/
theorem statusWordLayout : Obligations.StatusWordLayout := by
  unfold Obligations.StatusWordLayout
  intro st
  obtain ⟨hpos, har, hcrc, hss⟩ := st.word_flags
  obtain ⟨hlow, hhigh⟩ := st.word_reserved
  refine ⟨?_, hpos, har, hcrc, hss, hlow, st.word_errCode, hhigh⟩
  rw [st.word_phase]
  cases st.phase <;> rfl

end Sys2Proof.Machine
end

