-- ==== Sys2Proof/Proofs/BufferBytes.lean ====
section
/-! PROOFS. The bytes of the Sample Buffer: a read after a write of several bytes (20_memory R55), the little-endian
samples (R42), what `PUSH` appends (R45, 40_load_pack R74), and the commands that leave every byte (R41, R46, R47). -/

namespace Sys2Proof.Machine

/-! ### Read after write -/

/-- The first byte's address lies below those of the others, so no later write of the sequence covers it. -/
theorem Memory.readByte_writeBytes (m : Memory) (a b : Nat) (bs : List Byte) :
    (m.writeBytes a bs).readByte b = if a ≤ b ∧ b < a + bs.length then bs[b - a]? else m.readByte b := by
  induction bs generalizing m a with
  | nil => exact (if_neg fun h => Nat.not_lt.mpr h.1 h.2).symm
  | cons v bs ih =>
    rw [Memory.writeBytes, ih, List.length_cons]
    by_cases hfirst : b = a
    · subst hfirst
      rw [if_neg (by omega), if_pos (by omega), Memory.readByte_writeByte_same, Nat.sub_self,
        List.getElem?_cons_zero]
    · rw [Memory.readByte_writeByte_ne v hfirst]
      by_cases hrest : a + 1 ≤ b ∧ b < a + 1 + bs.length
      · rw [if_pos hrest, if_pos (by omega), show b - a = b - (a + 1) + 1 by omega, List.getElem?_cons_succ]
      · rw [if_neg hrest, if_neg (by omega)]

/-- Settles O51: `Memory.readByte_writeBytes`, by induction on the bytes written. -/
theorem readAfterWrite : Obligations.ReadAfterWrite := by
  unfold Obligations.ReadAfterWrite
  exact Memory.readByte_writeBytes

/-! ### The samples of the buffer -/

/-- Beyond the samples no byte holds a value (10_state R30). -/
theorem State.BufferOk.readByte_beyond {s : State} (h : s.BufferOk) {a : Nat} (ha : 2 * s.nsamp.toNat ≤ a) :
    s.buf.readByte a = none := by
  rw [h.readByte]
  exact List.getElem?_eq_none (h.bytes_length.trans_le ha)

/-- Settles O50: a buffer that holds exactly its samples is the list of its bytes, and its samples are read from that
list two bytes at a time. -/
theorem samplesAreLittleEndian : Obligations.SamplesAreLittleEndian := by
  unfold Obligations.SamplesAreLittleEndian
  intro s h
  refine ⟨h.samples_length, fun i x hx => ?_, fun a ha => h.readByte_beyond ha, fun a => ?_, h.bytesOf_samples.symm⟩
  · rw [h.readByte, h.readByte]
    exact samplesOf_getElem_bytes s.bytes s.nsamp.toNat i x h.bytes_length hx
  · rw [h.bytesOf_samples, h.readByte]

/-! ### PUSH -/

/-- The state with one more sample at the first unused index (40_load_pack R74). -/
def State.pushed (s : State) (x : Sample) : State :=
  { s with buf := s.buf.writeBytes (2 * s.nsamp.toNat) (sampleBytes x), nsamp := s.nsamp + 1 }

/-- In LOAD with room left, `PUSH` completes (40_load_pack R74). -/
theorem exec_push_of_room {s : State} (x : Sample) (hload : s.status.phase = .load)
    (hroom : s.nsamp.toNat < s.cfg.cap.toNat) : exec (.push x) s = .next ((s.pushed x).respond 0) := by
  have hne : s.nsamp ≠ s.cfg.cap := fun h => by simp [h] at hroom
  show execPush x s = _
  rw [execPush, unlessFault_of_ne (by simp [hload]), requirePhase_of_eq hload, if_neg hne,
    State.storeSample_of_le x hroom]
  rfl

/-- A read after the write of a sample's two bytes (20_memory R42, R55). -/
theorem Memory.readByte_writeBytes_sample (m : Memory) (a : Nat) (x : Sample) (b : Nat) :
    (m.writeBytes a (sampleBytes x)).readByte b =
      if b = a then some (x.extractLsb' 0 8) else if b = a + 1 then some (x.extractLsb' 8 8) else m.readByte b := by
  rw [Memory.readByte_writeBytes]
  by_cases hlow : b = a
  · simp [hlow, sampleBytes]
  · by_cases hhigh : b = a + 1
    · simp [hhigh, sampleBytes]
    · rw [if_neg hlow, if_neg hhigh, if_neg]
      simp only [sampleBytes, List.length_cons, List.length_nil]
      omega

/-- Where the buffer holds exactly its samples, one more sample lies at the end of its cells. -/
theorem State.BufferOk.pushed_buf {s : State} (h : s.BufferOk) (x : Sample) :
    (s.pushed x).buf =
      s.buf ++ [(2 * s.nsamp.toNat, x.extractLsb' 0 8), (2 * s.nsamp.toNat + 1, x.extractLsb' 8 8)] :=
  Memory.writeBytes_sample x h

theorem State.BufferOk.pushed {s : State} (h : s.BufferOk) (x : Sample)
    (hroom : s.nsamp.toNat < s.cfg.cap.toNat) : (s.pushed x).BufferOk := by
  have hcount : (s.pushed x).nsamp.toNat = s.nsamp.toNat + 1 := by
    show (s.nsamp + 1).toNat = s.nsamp.toNat + 1
    bv_omega
  rw [State.BufferOk, h.pushed_buf, List.map_append, h, hcount, Nat.mul_succ, List.range_succ, List.range_succ]
  simp

theorem State.BufferOk.samples_pushed {s : State} (h : s.BufferOk) (x : Sample) :
    (s.pushed x).samples = s.samples ++ [x] := by
  have hbytes : (s.pushed x).bytes = s.bytes ++ bytesOf [x] := by
    rw [State.bytes, h.pushed_buf, List.map_append]
    rfl
  rw [State.samples, hbytes, samplesOf_append _ _ _ h.bytes_length, samplesOf_bytesOf]
  rfl

/-- Settles O29: with room left `PUSH` completes, and its two bytes lie where no sample's byte lay. -/
theorem pushStoresTwoBytes : Obligations.PushStoresTwoBytes := by
  unfold Obligations.PushStoresTwoBytes
  intro s t x hload hroom hexec
  obtain rfl : (s.pushed x).respond 0 = t := Host.Outcome.next.inj ((exec_push_of_room x hload hroom).symm.trans hexec)
  have hread := Memory.readByte_writeBytes_sample s.buf (2 * s.nsamp.toNat) x
  refine ⟨(hread _).trans (if_pos rfl), ?_, fun a hlow hhigh => ?_, fun h => ⟨h.pushed x hroom, h.samples_pushed x⟩⟩
  · exact (hread _).trans (by simp)
  · exact (hread a).trans (by simp [hlow, hhigh])

/-! ### The commands that leave the buffer -/

/-- Of the commands performed, only `PUSH`, `STRIP` and `CLEAR` give the buffer other bytes (20_memory R41). -/
theorem Effect.buf_eq {s t : State} {i : Instr} (heff : Effect s i t) (hpush : ∀ x, i ≠ .push x) (hstrip : i ≠ .strip)
    (hclear : i ≠ .clear) : t.buf = s.buf := by
  cases heff with
  | push x hload hroom => exact absurd rfl (hpush x)
  | strip cs hbuilt hready hcrc hbytes => exact absurd rfl hstrip
  | clear => exact absurd rfl hclear
  | _ => rfl

/-- Settles O53: a command not performed is ignored where FAULT is not entered, and a performed one keeps the cells. -/
theorem otherCommandsLeaveTheBuffer : Obligations.OtherCommandsLeaveTheBuffer := by
  unfold Obligations.OtherCommandsLeaveTheBuffer
  intro i s t hexec hfault hpush hstrip hclear a
  have hbuf : t.buf = s.buf := by
    rcases exec_effect hexec with hend | heff
    · rw [hend.eq_respond hfault, State.respond_buf]
    · exact heff.buf_eq hpush hstrip hclear
  rw [hbuf]

end Sys2Proof.Machine
end

