-- ==== Sys2Proof/Proofs/ReadingCommands.lean ====
section
/-! PROOFS. The commands that read the buffer and write no cell of it: each completes where its read does, issued again
it changes nothing further (20_memory R48), and the two engines of `ARCRC` end alike under every interleaving of their
buffer accesses (R52). -/

namespace Sys2Proof.Machine

/-! ### Completion -/

section
variable {s : State}

theorem exec_ar_of_load {bs : List Byte} (hready : s.status.phase = .ready) (hpos : s.status.posValid = true)
    (hframes : s.loadBytes 0 (4 * s.nframes.toNat) = .ok bs) :
    exec .ar s = .next ((s.arFrom (framesOf bs)).respond 0) := by
  show execAr s = _
  rw [execAr, unlessFault_of_ne (by simp [hready]), requirePhase_of_eq hready, requireFlag_of_true hpos,
    arEngine_of_load hframes]
  rfl

theorem exec_crc_of_load {cs : List Byte} (hready : s.status.phase = .ready)
    (hbytes : s.loadBytes 0 (2 * s.nsamp.toNat) = .ok cs) :
    exec .crc s = .next ((s.writeCrc (crc32Of cs)).respond 0) := by
  show execCrc s = _
  rw [execCrc, unlessFault_of_ne (by simp [hready]), requirePhase_of_eq hready, crcEngine_of_load hbytes]
  rfl

theorem exec_arcrc_of_load {bs cs : List Byte} (hready : s.status.phase = .ready) (hpos : s.status.posValid = true)
    (hframes : s.loadBytes 0 (4 * s.nframes.toNat) = .ok bs)
    (hbytes : s.loadBytes 0 (2 * s.nsamp.toNat) = .ok cs) :
    exec .arcrc s = .next (((s.arFrom (framesOf bs)).writeCrc (crc32Of cs)).respond 0) := by
  show execArcrc s = _
  rw [execArcrc, unlessFault_of_ne (by simp [hready]), requirePhase_of_eq hready, requireFlag_of_true hpos,
    bothEngines_of_load hframes hbytes]
  rfl

theorem exec_peekf_of_frame {j : BitVec 28} {w : Word} (hready : s.status.phase = .ready)
    (hj : j.toNat < s.nframes.toNat) (hframe : s.frame j.toNat = .ok w) :
    exec (.peekf j) s = .next (s.respond w) := by
  show execPeekf j s = _
  rw [execPeekf, unlessFault_of_ne (by simp [hready]), requirePhase_of_eq hready, if_neg (Nat.not_le.mpr hj), hframe]

end

/-! ### Reading commands issued again -/

/-- After a command that was ignored or raised the phase is FAULT and the response is the one an ignored word gives, so
a further ignored word changes nothing (60_exceptions R132). -/
theorem IgnoredOrRaised.unlessFault_again {s t : State} (hend : IgnoredOrRaised s t) (r : Result) :
    unlessFault t r = .next t := by
  rcases hend with ⟨hfault, rfl⟩ | ⟨-, e, info, rfl, -⟩
  · exact unlessFault_of_fault hfault r
  · exact unlessFault_of_fault rfl r

/-- Settles O49, command by command: one that was ignored or raised is ignored the second time; a performed one finds
its checks and its reads as before, since it wrote only result registers, flags and the response. -/
theorem repeatedReadsChangeNothing : Obligations.RepeatedReadsChangeNothing := by
  unfold Obligations.RepeatedReadsChangeNothing
  intro i s t hi hexec
  rcases hi with rfl | ⟨r, rfl⟩ | ⟨j, rfl⟩ | rfl | rfl | rfl
  · obtain rfl : s.respond 0 = t := Host.Outcome.next.inj hexec
    rfl
  case inr.inl =>
    obtain rfl : s.respond (s.readReg r) = t := Host.Outcome.next.inj hexec
    show Host.Outcome.next ((s.respond (s.readReg r)).respond ((s.respond (s.readReg r)).readReg r)) = _
    rw [State.readReg_respond]
    rfl
  case inr.inr.inl =>
    rcases execPeekf_next hexec with hend | ⟨hready, hj, w, hframe, rfl⟩
    · exact hend.unlessFault_again _
    · exact exec_peekf_of_frame (s := s.respond w) hready hj hframe
  case inr.inr.inr.inl =>
    rcases execAr_next hexec with hend | ⟨hready, hpos, bs, hframes, rfl⟩
    · exact hend.unlessFault_again _
    · exact exec_ar_of_load (s := (s.arFrom (framesOf bs)).respond 0) hready hpos hframes
  case inr.inr.inr.inr.inl =>
    rcases execCrc_next hexec with hend | ⟨hready, cs, hbytes, rfl⟩
    · exact hend.unlessFault_again _
    · exact exec_crc_of_load (s := (s.writeCrc (crc32Of cs)).respond 0) hready hbytes
  case inr.inr.inr.inr.inr =>
    rcases execArcrc_next hexec with hend | ⟨hready, hpos, bs, cs, hframes, hbytes, rfl⟩
    · exact hend.unlessFault_again _
    · exact exec_arcrc_of_load (s := ((s.arFrom (framesOf bs)).writeCrc (crc32Of cs)).respond 0) hready hpos
        hframes hbytes

/-! ### The interleaved engines -/

/-- The sums and the remainder the two engines will have reached once both have read all that is left to them. -/
def Engines.outcome (w : Window) (e : Engines) : Sums × Word := (arPass w e.m e.sums e.frames, crcRun e.c e.bytes)

/-- One access moves one engine along its own pass and leaves the other, so the outcome stays. -/
theorem Engines.outcome_turn (w : Window) (e : Engines) (t : Turn) : (e.turn w t).outcome w = e.outcome w := by
  obtain ⟨m, frames, sums, bytes, c⟩ := e
  cases t with
  | accurateRip => cases frames <;> rfl
  | crc32 => cases bytes <;> rfl

theorem Engines.outcome_run (w : Window) (e : Engines) (schedule : List Turn) :
    (e.run w schedule).outcome w = e.outcome w := by
  induction schedule generalizing e with
  | nil => rfl
  | cons t ts ih => exact (ih (e.turn w t)).trans (e.outcome_turn w t)

/-- At the join nothing is left to read: the working values are the outcome. -/
theorem Engines.outcome_of_joined {e : Engines} (w : Window) (h : e.joined = true) : e.outcome w = (e.sums, e.c) := by
  obtain ⟨hframes, hbytes⟩ : e.frames = [] ∧ e.bytes = [] := by simpa [Engines.joined] using h
  rw [Engines.outcome, hframes, hbytes]
  rfl

/-- Under every schedule that joins, the engines write what the two passes write one after the other. -/
theorem State.writeJoin_run (s : State) (frames : List Word) (bytes : List Byte) (schedule : List Turn)
    (hjoined : ((Engines.start frames bytes).run (windowOf s.pos s.nframes) schedule).joined = true) :
    s.writeJoin ((Engines.start frames bytes).run (windowOf s.pos s.nframes) schedule) =
      (s.arFrom frames).writeCrc (crc32Of bytes) := by
  have hend := Engines.outcome_run (windowOf s.pos s.nframes) (Engines.start frames bytes) schedule
  rw [Engines.outcome_of_joined _ hjoined] at hend
  obtain ⟨hsums, hc⟩ := Prod.mk.inj hend
  rw [State.writeJoin, hsums, hc]
  rfl

/-- Settles O48: the invariant gives both passes of `ARCRC` the buffer's own bytes, and every schedule ends where those
passes end. -/
theorem everyInterleavingAgrees : Obligations.EveryInterleavingAgrees := by
  unfold Obligations.EveryInterleavingAgrees
  intro s schedule hinv hready hpos hjoined
  obtain ⟨hframes, hbytes⟩ := hinv.loadBytes_ready hready
  rw [s.writeJoin_run s.frames s.bytes schedule hjoined]
  exact exec_arcrc_of_load hready hpos hframes hbytes

end Sys2Proof.Machine
end

