-- ==== Sys2Proof/Proofs/Encoding.lean ====
section
/-! PROOFS. The decoder and the encoder agree (spec/30_encoding.md R60 to R69): a word is its two fields, the decoder of
each operand format is inverted once, and from the round trip follows the opcode map as mask and match (R63). -/

namespace Sys2Proof

open Sys2Proof.Machine

/-! ### The two fields of a packed word (30_encoding R60) -/

theorem opField_pack {op arg : Nat} (hop : op < 16) (harg : arg < 2 ^ 28) : (opField (pack op arg)).toNat = op := by
  rw [opField_toNat, pack_toNat hop harg]
  omega

theorem argField_pack {op : Nat} {arg : BitVec 28} (hop : op < 16) : argField (pack op arg.toNat) = arg := by
  have harg := arg.isLt
  apply BitVec.eq_of_toNat_eq
  rw [argField_toNat, pack_toNat hop harg]
  omega

/-- A word is packed from its own fields. -/
theorem pack_fields (w : Word) : pack (opField w).toNat (argField w).toNat = w := by
  apply BitVec.eq_of_toNat_eq
  rw [pack_toNat (opField w).isLt (argField w).isLt, ← word_toNat_fields]

/-! ### The two fields of a command's word (30_encoding R61, R63) -/

/-- `OP` of a command (30_encoding R63). -/
def Instr.opcode : Instr → Nat
  | .nop => 0x0
  | .clear => 0x1
  | .setpos _ _ => 0x2
  | .push _ => 0x3
  | .sealBuffer => 0x4
  | .ar => 0x5
  | .crc => 0x6
  | .arcrc => 0x7
  | .strip => 0x8
  | .get _ => 0x9
  | .peekf _ => 0xA

/-- `ARG` of a command: its operand in the format's field, the reserved bits 0 (30_encoding R61). -/
def Instr.arg : Instr → BitVec 28
  | .setpos track total => BitVec.ofNat 28 (total.toNat * 2 ^ 8 + track.toNat)
  | .push sample => sample.setWidth 28
  | .get reg => reg.num.setWidth 28
  | .peekf index => index
  | _ => 0

theorem Instr.opcode_lt (i : Instr) : i.opcode < 16 := by
  cases i <;> simp [Instr.opcode]

theorem encode_eq_pack (i : Instr) : encode i = pack i.opcode i.arg.toNat := by
  cases i with
  | setpos track total =>
    have hfits : total.toNat * 2 ^ 8 + track.toNat < 2 ^ 28 := by omega
    rw [Instr.arg, BitVec.toNat_ofNat, Nat.mod_eq_of_lt hfits]
    rfl
  | push sample => rw [Instr.arg, BitVec.toNat_setWidth_of_le (by decide)]; rfl
  | get reg => rw [Instr.arg, BitVec.toNat_setWidth_of_le (by decide)]; rfl
  | _ => rfl

/-- A word is a command's word exactly when its two fields are the command's. -/
theorem encode_eq_iff {i : Instr} {w : Word} :
    encode i = w ↔ (opField w).toNat = i.opcode ∧ argField w = i.arg := by
  rw [encode_eq_pack]
  constructor
  · rintro rfl
    exact ⟨opField_pack i.opcode_lt i.arg.isLt, argField_pack i.opcode_lt⟩
  · rintro ⟨hop, harg⟩
    rw [← hop, ← harg, pack_fields]

/-! ### The decoder of each operand format (30_encoding R61) -/

theorem ite_ok_iff {c : Prop} [Decidable c] {i j : Instr} {e : Illegal} :
    (if c then .ok i else .error e : Except Illegal Instr) = .ok j ↔ c ∧ i = j := by
  split <;> simp [*]

theorem decodeZ_ok_iff {i j : Instr} {arg : BitVec 28} : decodeZ i arg = .ok j ↔ arg = 0 ∧ i = j := ite_ok_iff

theorem decodeStrip_ok_iff {hasStrip : Bool} {arg : BitVec 28} {j : Instr} :
    decodeStrip hasStrip arg = .ok j ↔ arg = 0 ∧ hasStrip = true ∧ .strip = j := by
  unfold decodeStrip
  split
  · next hzero => rw [ite_ok_iff, and_iff_right hzero]
  · next hzero => exact ⟨fun h => (nomatch h), fun h => absurd h.1 hzero⟩

theorem decodeP_ok_iff {arg : BitVec 28} {j : Instr} :
    decodeP arg = .ok j ↔ arg.extractLsb' 16 12 = 0 ∧ .setpos (arg.extractLsb' 0 8) (arg.extractLsb' 8 8) = j :=
  ite_ok_iff

theorem decodeS_ok_iff {arg : BitVec 28} {j : Instr} :
    decodeS arg = .ok j ↔ arg.extractLsb' 16 12 = 0 ∧ .push (arg.extractLsb' 0 16) = j := ite_ok_iff

theorem decodeG_ok_iff {arg : BitVec 28} {j : Instr} :
    decodeG arg = .ok j ↔ arg.extractLsb' 4 24 = 0 ∧ .get (Reg.ofNum (arg.extractLsb' 0 4)) = j := ite_ok_iff

/-! ### The operand of a command's word (30_encoding R61) -/

/-- Two bytes below twelve reserved bits that are 0. -/
theorem arg_setpos_iff {arg : BitVec 28} {track total : BitVec 8} :
    arg = (Instr.setpos track total).arg ↔
      arg.extractLsb' 16 12 = 0 ∧ arg.extractLsb' 0 8 = track ∧ arg.extractLsb' 8 8 = total := by
  simp only [Instr.arg, BitVec.ofNat_eq_ofNat, ← BitVec.toNat_inj, BitVec.extractLsb'_toNat,
    Nat.shiftRight_eq_div_pow, BitVec.toNat_ofNat]
  omega

theorem arg_push_iff {arg : BitVec 28} {sample : Sample} :
    arg = (Instr.push sample).arg ↔ arg.extractLsb' 16 12 = 0 ∧ arg.extractLsb' 0 16 = sample := by
  simp only [Instr.arg, BitVec.ofNat_eq_ofNat, ← BitVec.toNat_inj, BitVec.extractLsb'_toNat,
    Nat.shiftRight_eq_div_pow, BitVec.toNat_ofNat, BitVec.toNat_setWidth]
  omega

theorem Reg.ofNum_eq_iff {n : BitVec 4} {reg : Reg} : Reg.ofNum n = reg ↔ n = reg.num :=
  ⟨fun h => h ▸ (Reg.num_ofNum n).symm, fun h => h ▸ Reg.ofNum_num reg⟩

theorem arg_get_iff {arg : BitVec 28} {reg : Reg} :
    arg = (Instr.get reg).arg ↔ arg.extractLsb' 4 24 = 0 ∧ Reg.ofNum (arg.extractLsb' 0 4) = reg := by
  rw [Reg.ofNum_eq_iff]
  simp only [Instr.arg, BitVec.ofNat_eq_ofNat, ← BitVec.toNat_inj, BitVec.extractLsb'_toNat,
    Nat.shiftRight_eq_div_pow, BitVec.toNat_ofNat, BitVec.toNat_setWidth]
  omega

/-! ### The round trip -/

/-- The decoder's rows, one by one: the opcode chooses the format, whose decoder accepts the operand. -/
theorem fields_of_decode {hasStrip : Bool} {w : Word} {i : Instr} (h : decode hasStrip w = .ok i) :
    ((opField w).toNat = i.opcode ∧ argField w = i.arg) ∧ i.wellFormed hasStrip = true := by
  unfold decode at h
  split at h
  case h_1 hop | h_2 hop | h_5 hop | h_6 hop | h_7 hop | h_8 hop =>
    obtain ⟨harg, rfl⟩ := decodeZ_ok_iff.mp h
    exact ⟨⟨hop, harg⟩, rfl⟩
  case h_3 hop =>
    obtain ⟨hzero, rfl⟩ := decodeP_ok_iff.mp h
    exact ⟨⟨hop, arg_setpos_iff.mpr ⟨hzero, rfl, rfl⟩⟩, rfl⟩
  case h_4 hop =>
    obtain ⟨hzero, rfl⟩ := decodeS_ok_iff.mp h
    exact ⟨⟨hop, arg_push_iff.mpr ⟨hzero, rfl⟩⟩, rfl⟩
  case h_9 hop =>
    obtain ⟨harg, hbuilt, rfl⟩ := decodeStrip_ok_iff.mp h
    exact ⟨⟨hop, harg⟩, hbuilt⟩
  case h_10 hop =>
    obtain ⟨hzero, rfl⟩ := decodeG_ok_iff.mp h
    exact ⟨⟨hop, arg_get_iff.mpr ⟨hzero, rfl⟩⟩, rfl⟩
  case h_11 hop =>
    cases h
    exact ⟨⟨hop, rfl⟩, rfl⟩
  case h_12 => cases h

theorem decode_of_fields {hasStrip : Bool} {w : Word} {i : Instr} (hop : (opField w).toNat = i.opcode)
    (harg : argField w = i.arg) (hwf : i.wellFormed hasStrip = true) : decode hasStrip w = .ok i := by
  rw [decode, hop]
  cases i with
  | setpos track total =>
    obtain ⟨hzero, rfl, rfl⟩ := arg_setpos_iff.mp harg
    exact decodeP_ok_iff.mpr ⟨hzero, rfl⟩
  | push sample =>
    obtain ⟨hzero, rfl⟩ := arg_push_iff.mp harg
    exact decodeS_ok_iff.mpr ⟨hzero, rfl⟩
  | strip => exact decodeStrip_ok_iff.mpr ⟨harg, hwf, rfl⟩
  | get reg =>
    obtain ⟨hzero, rfl⟩ := arg_get_iff.mp harg
    exact decodeG_ok_iff.mpr ⟨hzero, rfl⟩
  | peekf index =>
    obtain rfl : argField w = index := harg
    rfl
  | _ => exact decodeZ_ok_iff.mpr ⟨harg, rfl⟩

/-- A word decodes to a command exactly when it is the command's word and the build has the command
(30_encoding R67, R68). -/
theorem decode_ok_iff {hasStrip : Bool} {w : Word} {i : Instr} :
    decode hasStrip w = .ok i ↔ encode i = w ∧ i.wellFormed hasStrip = true := by
  rw [encode_eq_iff]
  exact ⟨fields_of_decode, fun ⟨⟨hop, harg⟩, hwf⟩ => decode_of_fields hop harg hwf⟩

/-- Settles O2: one direction of `decode_ok_iff`. -/
theorem decodeOfEncode : Obligations.DecodeOfEncode := by
  unfold Obligations.DecodeOfEncode
  intro hasStrip i hwf
  exact decode_ok_iff.mpr ⟨rfl, hwf⟩

/-- Settles O3: the other direction of `decode_ok_iff`. -/
theorem encodeOfDecode : Obligations.EncodeOfDecode := by
  unfold Obligations.EncodeOfDecode
  intro hasStrip w i h
  exact decode_ok_iff.mp h

/-! ### The opcode map as mask and match (30_encoding R63) -/

theorem Instr.wellFormed_true (i : Instr) : i.wellFormed true = true := by
  cases i <;> rfl

/-- How many low bits of a command's word its operand takes (30_encoding R61). -/
def Instr.operandBits : Instr → Nat
  | .setpos _ _ => 16
  | .push _ => 16
  | .get _ => 4
  | .peekf _ => 28
  | _ => 0

theorem Instr.operandBits_cases (i : Instr) :
    i.operandBits = 0 ∨ i.operandBits = 4 ∨ i.operandBits = 16 ∨ i.operandBits = 28 := by
  cases i <;> simp [Instr.operandBits]

/-- The mask of a row covers all but the operand's bits. -/
theorem Instr.row_mask (i : Instr) : i.row.mask = BitVec.allOnes 32 <<< i.operandBits := by
  cases i with
  | setpos track total => exact (by decide : (0xFFFF0000 : Word) = BitVec.allOnes 32 <<< 16)
  | push sample => exact (by decide : (0xFFFF0000 : Word) = BitVec.allOnes 32 <<< 16)
  | get reg => exact (by decide : (0xFFFFFFF0 : Word) = BitVec.allOnes 32 <<< 4)
  | peekf index => exact (by decide : (0xF0000000 : Word) = BitVec.allOnes 32 <<< 28)
  | _ => exact (by decide : (0xFFFFFFFF : Word) = BitVec.allOnes 32 <<< 0)

theorem Instr.row_pattern_toNat (i : Instr) : i.row.pattern.toNat = i.opcode * 2 ^ 28 := by
  cases i <;> simp only [Instr.row, Instr.opcode] <;> decide

theorem and_mask_eq_pattern_iff (w : Word) (i : Instr) :
    w &&& i.row.mask = i.row.pattern ↔
      (opField w).toNat = i.opcode ∧ (argField w).toNat < 2 ^ i.operandBits := by
  have hw := w.isLt
  have hop := i.opcode_lt
  rw [i.row_mask, ← BitVec.shiftLeft_ushiftRight, ← BitVec.toNat_inj, i.row_pattern_toNat,
    opField_toNat, argField_toNat, BitVec.toNat_shiftLeft, BitVec.toNat_ushiftRight, Nat.shiftLeft_eq,
    Nat.shiftRight_eq_div_pow]
  rcases i.operandBits_cases with hbits | hbits | hbits | hbits
  all_goals
    rw [hbits]
    omega

theorem Instr.arg_lt (i : Instr) : i.arg.toNat < 2 ^ i.operandBits := by
  cases i with
  | setpos track total =>
    show (BitVec.ofNat 28 _).toNat < 2 ^ 16
    rw [BitVec.toNat_ofNat]
    omega
  | push sample => exact (BitVec.toNat_setWidth_of_le (by decide)).trans_lt sample.isLt
  | get reg => exact (BitVec.toNat_setWidth_of_le (by decide)).trans_lt reg.num.isLt
  | peekf index => exact index.isLt
  | _ => decide

/-- Reserved bits that are 0 above an operand. -/
theorem extractLsb'_eq_zero {arg : BitVec 28} {k n : Nat} (h : arg.toNat < 2 ^ k) : arg.extractLsb' k n = 0 := by
  apply BitVec.eq_of_toNat_eq
  simp [Nat.shiftRight_eq_div_pow, Nat.div_eq_of_lt h]

/-- Every operand that leaves the reserved bits 0 is the operand of a command of the row (30_encoding R62). -/
theorem Instr.exists_arg_eq (i : Instr) {arg : BitVec 28} (h : arg.toNat < 2 ^ i.operandBits) :
    ∃ j : Instr, (j.opcode = i.opcode ∧ arg = j.arg) ∧ j.row = i.row := by
  cases i with
  | setpos track total =>
    exact ⟨.setpos (arg.extractLsb' 0 8) (arg.extractLsb' 8 8),
      ⟨rfl, arg_setpos_iff.mpr ⟨extractLsb'_eq_zero h, rfl, rfl⟩⟩, rfl⟩
  | push sample =>
    exact ⟨.push (arg.extractLsb' 0 16), ⟨rfl, arg_push_iff.mpr ⟨extractLsb'_eq_zero h, rfl⟩⟩, rfl⟩
  | get reg =>
    exact ⟨.get (Reg.ofNum (arg.extractLsb' 0 4)), ⟨rfl, arg_get_iff.mpr ⟨extractLsb'_eq_zero h, rfl⟩⟩, rfl⟩
  | peekf index => exact ⟨.peekf arg, ⟨rfl, rfl⟩, rfl⟩
  | _ => exact ⟨_, ⟨rfl, BitVec.eq_of_toNat_eq (Nat.lt_one_iff.mp h)⟩, rfl⟩

/-- A word matches the row of a command exactly when it is the word of some command of that row. -/
theorem and_mask_eq_pattern_iff_exists (w : Word) (i : Instr) :
    w &&& i.row.mask = i.row.pattern ↔ ∃ j : Instr, encode j = w ∧ j.row = i.row := by
  constructor
  · intro h
    obtain ⟨hop, harg⟩ := (and_mask_eq_pattern_iff w i).mp h
    obtain ⟨j, ⟨hopcode, hargument⟩, hrow⟩ := i.exists_arg_eq harg
    exact ⟨j, encode_eq_iff.mpr ⟨hop.trans hopcode.symm, hargument⟩, hrow⟩
  · rintro ⟨j, henc, hrow⟩
    obtain ⟨hop, harg⟩ := encode_eq_iff.mp henc
    rw [← hrow, and_mask_eq_pattern_iff, harg]
    exact ⟨hop, j.arg_lt⟩

theorem mem_opcodeRows_iff {row : Row} : row ∈ opcodeRows ↔ ∃ i : Instr, i.row = row := by
  constructor
  · intro h
    have hmap : row ∈ List.map Instr.row [.nop, .clear, .setpos 0 0, .push 0, .sealBuffer, .ar, .crc, .arcrc, .strip,
      .get .status, .peekf 0] := h
    obtain ⟨i, -, hi⟩ := List.mem_map.mp hmap
    exact ⟨i, hi⟩
  · rintro ⟨i, rfl⟩
    cases i <;> simp [opcodeRows, Instr.row]

/-- In the build with `STRIP`, decoding is being the word of a command. -/
theorem decode_true_ok_iff {w : Word} {i : Instr} : decode true w = .ok i ↔ encode i = w :=
  decode_ok_iff.trans (and_iff_left i.wellFormed_true)

/-- Settles O4: the commands of a row are those its mask and match allow, so a word that decodes matches its command's
row. -/
theorem decodeFollowsMaskAndMatch : Obligations.DecodeFollowsMaskAndMatch := by
  unfold Obligations.DecodeFollowsMaskAndMatch
  intro w
  refine ⟨fun row hrow => ?_, fun hnone => ?_⟩
  · obtain ⟨i, rfl⟩ := mem_opcodeRows_iff.mp hrow
    simp only [decode_true_ok_iff]
    exact and_mask_eq_pattern_iff_exists w i
  · cases hdec : decode true w with
    | error e => exact ⟨e, rfl⟩
    | ok i =>
      have hmatch := (and_mask_eq_pattern_iff_exists w i).mpr ⟨i, decode_true_ok_iff.mp hdec, rfl⟩
      exact absurd hmatch (hnone i.row (mem_opcodeRows_iff.mpr ⟨i, rfl⟩))

/-! ### Words written out from the spec -/

/-- Settles O1: the eleven command words are their commands' encodings, and the seven others are decided field by
field. -/
theorem specWordsDecode : Obligations.SpecWordsDecode := by
  unfold Obligations.SpecWordsDecode
  simp only [decode_true_ok_iff]
  decide

end Sys2Proof
end

