-- ==== Sys2Proof/Proofs/IllegalWords.lean ====
section
/-! PROOFS. The words that are no command (spec/30_encoding.md R64, R65, R66): which words the decoder refuses, what a
step does with any of them, and what a build without `STRIP` never reaches. -/

namespace Sys2Proof.Machine

/-! ### The words refused -/

theorem decode_reservedOpcode (hasStrip : Bool) {w : Word} (h : 0xB ≤ (opField w).toNat) :
    decode hasStrip w = .error .reservedOpcode := by
  unfold decode
  split
  case h_12 => rfl
  all_goals omega

/-- A field that lies in `ARG` is the same field of the word. -/
theorem extractLsb'_argField (w : Word) {k n : Nat} (h : k + n ≤ 28) :
    (argField w).extractLsb' k n = w.extractLsb' k n := by
  ext i hi
  simp [argField, show k + i < 28 by omega]

/-- A reserved bit of `ARG` is set (30_encoding R65, formats Z, P and S, G of R61). -/
abbrev ReservedBitSet (w : Word) : Prop :=
  (opField w).toNat ∈ [0, 1, 4, 5, 6, 7, 8] ∧ argField w ≠ 0 ∨
    (opField w).toNat ∈ [2, 3] ∧ w.extractLsb' 16 12 ≠ 0 ∨ (opField w).toNat = 9 ∧ w.extractLsb' 4 24 ≠ 0

theorem decode_reservedBits (hasStrip : Bool) {w : Word} (h : ReservedBitSet w) :
    decode hasStrip w = .error .reservedBits := by
  rw [ReservedBitSet, ← extractLsb'_argField w (by decide), ← extractLsb'_argField w (by decide)] at h
  simp only [List.mem_cons, List.not_mem_nil, or_false] at h
  unfold decode
  rcases h with ⟨hop | hop | hop | hop | hop | hop | hop, hset⟩ | ⟨hop | hop, hset⟩ | ⟨hop, hset⟩
  all_goals
    rw [hop]
    exact if_neg hset

/-! ### What a step does with them -/

/-- A refused word raises `IllegalCommand` with the word, or is ignored in FAULT (30_encoding R64 to R66). -/
theorem step_of_decode_error {s : State} {w : Word} {e : Illegal} (hw : s.program[s.pc]? = some w)
    (hdec : decode s.cfg.hasStrip w = .error e) :
    (s.status.phase ≠ .fault → step s = raise .illegalCommand w { s with pc := s.pc + 1 }) ∧
    (s.status.phase = .fault → step s = .next { s with pc := s.pc + 1, rsp := some ⟨s.status.errCode, 0⟩ }) := by
  have hpresented : s.presented = some w := hw
  have hstep : step s = execIllegal w s.advance := by simp only [step, hpresented, hdec]
  rw [hstep]
  exact ⟨fun hp => unlessFault_of_ne (s := s.advance) hp _, fun hp => unlessFault_of_fault (s := s.advance) hp _⟩

/-- Settles O8: the decoder refuses every opcode from 0xB up. -/
theorem reservedOpcodeIsIllegal : Obligations.ReservedOpcodeIsIllegal := by
  unfold Obligations.ReservedOpcodeIsIllegal
  exact ⟨fun s w hw hop => step_of_decode_error hw (decode_reservedOpcode _ hop),
    decode_reservedOpcode true (by decide), decode_true_ok_iff.mpr rfl⟩

/-- Settles O9: the decoder refuses every word with a reserved bit set. -/
theorem reservedBitsAreIllegal : Obligations.ReservedBitsAreIllegal := by
  unfold Obligations.ReservedBitsAreIllegal
  intro s w hw hset
  exact step_of_decode_error hw (decode_reservedBits _ hset)

/-! ### The build without STRIP (30_encoding R66) -/

/-- Nothing `STRIP` leaves behind is there. -/
abbrev State.NeverStripped (s : State) : Prop :=
  s.crc32ss = 0 ∧ s.status.ssValid = false ∧ s.status.phase ≠ .stripped

theorem IgnoredOrRaised.neverStripped {s t : State} (hend : IgnoredOrRaised s t) (h : s.NeverStripped) :
    t.NeverStripped := by
  rcases hend with ⟨-, rfl⟩ | ⟨-, e, info, rfl, -⟩
  · exact h
  · exact ⟨rfl, rfl, by simp [Status.faulted]⟩

/-- Of the commands only `STRIP` writes what it leaves behind, and a build without it does not perform it. -/
theorem Effect.neverStripped {s t : State} {i : Instr} (heff : Effect s i t) (hbuild : s.cfg.hasStrip = false)
    (h : s.NeverStripped) : t.NeverStripped := by
  obtain ⟨hcrc32ss, hss, hphase⟩ := h
  cases heff with
  | clear => exact ⟨rfl, rfl, by simp [Status.initial]⟩
  | sealBuffer hload heven => exact ⟨hcrc32ss, hss, by simp⟩
  | strip cs hbuilt hready hcrc hbytes => cases hbuild.symm.trans hbuilt
  | _ => exact ⟨hcrc32ss, hss, hphase⟩

theorem step_neverStripped {s t : State} (hbuild : s.cfg.hasStrip = false) (h : s.NeverStripped)
    (hstep : step s = .next t) : t.NeverStripped := by
  rcases step_effect hstep with ⟨-, rfl⟩ | ⟨w, -, hend | ⟨i, heff⟩⟩
  · exact h
  · exact hend.neverStripped h
  · exact heff.neverStripped hbuild h

/-- `STRIP` reached without the decoder is illegal too (42_crc32 R102). -/
theorem exec_strip_of_not_built {s : State} (hbuild : s.cfg.hasStrip = false) (hp : s.status.phase ≠ .fault) :
    exec .strip s = raise .illegalCommand (encode .strip) s := by
  show execStrip s = _
  rw [execStrip, unlessFault_of_ne hp, if_neg (by simp [hbuild])]

/-- Settles O10: the decoder refuses the word, the command raises when reached directly, and `NeverStripped` holds after
reset and is kept by every step. -/
theorem stripNotBuilt : Obligations.StripNotBuilt := by
  unfold Obligations.StripNotBuilt
  intro s hbuild
  have hdec : decode s.cfg.hasStrip 0x80000000 = .error .stripNotBuilt := by rw [hbuild]; decide
  exact ⟨fun hw => (step_of_decode_error hw hdec).1, exec_strip_of_not_built hbuild,
    fun h t hstep => step_neverStripped hbuild h hstep, rfl, rfl, by simp [State.resetWith, Status.initial]⟩

end Sys2Proof.Machine
end

