-- ==== Sys2Proof/Proofs/CommandChecks.lean ====
section
/-! PROOFS. The checks of a command outside FAULT in their order (spec/30_encoding.md R71, spec/60_exceptions.md R127):
`exec` is the table `legal`, then the argument check, then the command's own effect. From this one equation follow the
errors a command raises, that in a state that meets the invariant every command completes (R72), and how the phase
changes (R71). -/

namespace Sys2Proof.Machine

/-! ### The checks in their order -/

/-- What a command does once every check has passed (30_encoding R71, 60_exceptions R127). -/
def perform : Instr → State → Result
  | .nop, s => .next (s.respond 0)
  | .clear, s => .next (s.cleared.respond 0)
  | .get reg, s => .next (s.respond (s.readReg reg))
  | .setpos track total, s =>
    .next (State.respond { s with pos := posWord track total, status := { s.status with posValid := true } } 0)
  | .push sample, s => finish ((s.storeSample s.nsamp.toNat sample).map fun t => { t with nsamp := s.nsamp + 1 })
  | .sealBuffer, s =>
    .next (State.respond { s with nframes := s.nsamp / 2, status := { s.status with phase := .ready } } 0)
  | .peekf index, s =>
    match s.frame index.toNat with
    | .ok w => .next (s.respond w)
    | .error f => .fault f
  | .ar, s => finish (arEngine s)
  | .crc, s => finish (crcEngine s)
  | .arcrc, s => finish (bothEngines s)
  | .strip, s => finish (stripEngine s)

/-- A command with one phase to be in and no flag checks the table's row (30_encoding R71). -/
theorem requirePhase_eq_ite (p : Phase) (cmd : Word) (s : State) (r : Result) :
    requirePhase p cmd s r = if (s.status.phase == p) = true then r else raise .sequence cmd s := by
  simp only [requirePhase, beq_iff_eq]

/-- A command with a flag in brackets checks the phase, then the flag (30_encoding R71). -/
theorem requirePhase_requireFlag (p : Phase) (flag : Bool) (cmd : Word) (s : State) (r : Result) :
    requirePhase p cmd s (requireFlag flag cmd s r) =
      if (s.status.phase == p && flag) = true then r else raise .sequence cmd s := by
  simp only [requirePhase_eq_ite, requireFlag, Bool.and_eq_true, ite_and]

/-- `SEAL` tests the count's parity on its low bit. -/
theorem getLsbD_zero_iff_odd {n : Word} : n.getLsbD 0 = true ↔ n.toNat % 2 = 1 := by
  simp [BitVec.getLsbD, Nat.testBit_zero]

/-- An argument check that passes or fails on one condition. -/
theorem elim_ite_none (c : Prop) [Decidable c] (r : Result) (e : ErrorKind) (info : Word) (s : State) :
    (if c then none else some (e, info)).elim r (fun err => raise err.1 err.2 s) = if c then r else raise e info s := by
  split <;> rfl

theorem elim_ite_some (c : Prop) [Decidable c] (r : Result) (e : ErrorKind) (info : Word) (s : State) :
    (if c then some (e, info) else none).elim r (fun err => raise err.1 err.2 s) = if c then raise e info s else r := by
  split <;> rfl

/-- Outside FAULT: `Sequence` where the table says so, then the argument's error, then the effect. -/
theorem exec_eq_checks {s : State} {i : Instr} (hwf : i.wellFormed s.cfg.hasStrip = true)
    (hp : s.status.phase ≠ .fault) :
    exec i s =
      if legal s i = true then (argumentError s i).elim (perform i s) fun err => raise err.1 err.2 s
      else raise .sequence (encode i) s := by
  cases i with
  | nop => rfl
  | clear => rfl
  | get reg => rfl
  | setpos track total =>
    show execSetpos track total s = _
    rw [execSetpos, unlessFault_of_ne hp, requirePhase_eq_ite, argumentError, elim_ite_none]
    simp only [posInBounds_iff]
    rfl
  | push sample =>
    show execPush sample s = _
    rw [execPush, unlessFault_of_ne hp, requirePhase_eq_ite, argumentError, elim_ite_some]
    rfl
  | sealBuffer =>
    show execSeal s = _
    rw [execSeal, unlessFault_of_ne hp, requirePhase_eq_ite, argumentError, elim_ite_some]
    simp only [getLsbD_zero_iff_odd]
    rfl
  | peekf index =>
    show execPeekf index s = _
    rw [execPeekf, unlessFault_of_ne hp, requirePhase_eq_ite, argumentError, elim_ite_none]
    simp only [← Nat.not_lt, ite_not]
    rfl
  | ar => exact (unlessFault_of_ne hp _).trans (requirePhase_requireFlag .ready _ _ s _)
  | crc => exact (unlessFault_of_ne hp _).trans (requirePhase_eq_ite .ready _ s _)
  | arcrc => exact (unlessFault_of_ne hp _).trans (requirePhase_requireFlag .ready _ _ s _)
  | strip =>
    exact ((unlessFault_of_ne hp _).trans (if_pos hwf)).trans (requirePhase_requireFlag .ready _ _ s _)

section
variable {s : State} {i : Instr} (hwf : i.wellFormed s.cfg.hasStrip = true) (hp : s.status.phase ≠ .fault)
include hwf hp

theorem exec_of_not_legal (h : legal s i = false) : exec i s = raise .sequence (encode i) s := by
  rw [exec_eq_checks hwf hp, if_neg (by simp [h])]

theorem exec_of_argumentError {e : ErrorKind} {info : Word} (h : legal s i = true)
    (harg : argumentError s i = some (e, info)) : exec i s = raise e info s := by
  rw [exec_eq_checks hwf hp, if_pos h, harg]
  rfl

theorem exec_of_checks (h : legal s i = true) (harg : argumentError s i = none) : exec i s = perform i s := by
  rw [exec_eq_checks hwf hp, if_pos h, harg]
  rfl

end

/-! ### Which error is raised -/

theorem error_eq_of_raise_eq {e e' : ErrorKind} {info info' : Word} {s : State}
    (h : raise e info s = raise e' info' s) : e = e' := by
  have hstate := Host.Outcome.next.inj h
  have hstatus := congrArg (fun t => t.status.err) hstate
  exact Option.some.inj hstatus

/-- No argument check answers `Sequence` (60_exceptions R131). -/
theorem argumentError_ne_sequence {s : State} {i : Instr} {e : ErrorKind} {info : Word}
    (h : argumentError s i = some (e, info)) : e ≠ .sequence := by
  rintro rfl
  cases i <;> simp [argumentError] at h

/-- No command's own effect is fault entry (60_exceptions R130). -/
theorem perform_phase {s t : State} {i : Instr} (hp : s.status.phase ≠ .fault) (h : perform i s = .next t) :
    t.status.phase ≠ .fault := by
  cases i with
  | nop => cases h; exact hp
  | clear => cases h; simp [Status.initial]
  | get reg => cases h; exact hp
  | setpos track total => cases h; exact hp
  | sealBuffer => cases h; simp
  | push sample =>
    cases hstore : s.storeSample s.nsamp.toNat sample with
    | error f => simp [perform, hstore, Except.map, finish] at h
    | ok u =>
      obtain ⟨-, rfl⟩ := State.storeSample_ok hstore
      rw [perform, hstore] at h
      cases h
      exact hp
  | peekf index =>
    cases hframe : s.frame index.toNat with
    | error f => simp [perform, hframe] at h
    | ok w =>
      rw [perform, hframe] at h
      cases h
      exact hp
  | ar =>
    obtain ⟨u, hu, rfl⟩ := finish_next h
    obtain ⟨bs, -, rfl⟩ := arEngine_ok hu
    exact hp
  | crc =>
    obtain ⟨u, hu, rfl⟩ := finish_next h
    obtain ⟨bs, -, rfl⟩ := crcEngine_ok hu
    exact hp
  | arcrc =>
    obtain ⟨u, hu, rfl⟩ := finish_next h
    obtain ⟨bs, cs, -, -, rfl⟩ := bothEngines_ok hu
    exact hp
  | strip =>
    obtain ⟨u, hu, rfl⟩ := finish_next h
    obtain ⟨bs, -, rfl⟩ := stripEngine_ok hu
    simp

/-- Settles O18: past the table a command raises its argument's error, which is another, or has its effect, which does
not lead to FAULT. -/
theorem illegalPhaseRaisesSequence : Obligations.IllegalPhaseRaisesSequence := by
  unfold Obligations.IllegalPhaseRaisesSequence
  intro s i hwf hp
  refine ⟨exec_of_not_legal hwf hp, fun hlegal info hraise => ?_⟩
  cases harg : argumentError s i with
  | none =>
    rw [exec_of_checks hwf hp hlegal harg] at hraise
    exact perform_phase hp hraise rfl
  | some err =>
    rw [exec_of_argumentError hwf hp hlegal harg] at hraise
    exact argumentError_ne_sequence harg (error_eq_of_raise_eq hraise)

/-! ### Every step completes -/

/-- Every frame below `NFRAMES` of a sealed buffer can be read (40_load_pack R77). -/
theorem State.Inv.frame_ok {s : State} (h : s.Inv) (hready : s.status.phase = .ready) {j : Nat}
    (hj : j < s.nframes.toNat) : ∃ w, s.frame j = .ok w := by
  obtain ⟨hbuf, ⟨-, hcap, -⟩, -, -, ⟨-, hsealed, -⟩, -⟩ := h
  obtain ⟨hcount, -⟩ := hsealed hready
  have hload := State.loadBytes_inside hbuf hcap (a := 4 * j) (n := 4) (by omega)
  rw [State.frame, State.memRead, hload]
  exact ⟨_, rfl⟩

/-- Past its checks a command finds room for its write and a value in every byte it reads. -/
theorem State.Inv.perform_completes {s : State} {i : Instr} (h : s.Inv) (hlegal : legal s i = true)
    (harg : argumentError s i = none) : ∃ t, perform i s = .next t := by
  cases i with
  | push sample =>
    obtain ⟨-, ⟨-, hcap, -⟩, -⟩ := h
    have hne : s.nsamp ≠ s.cfg.cap := by simpa [argumentError] using harg
    have hroom : s.nsamp.toNat < s.cfg.cap.toNat := by bv_omega
    rw [perform, State.storeSample_of_le sample hroom]
    exact ⟨_, rfl⟩
  | peekf index =>
    have hready : s.status.phase = .ready := by simpa [legal] using hlegal
    have hindex : index.toNat < s.nframes.toNat := by simpa [argumentError] using harg
    obtain ⟨w, hframe⟩ := h.frame_ok hready hindex
    rw [perform, hframe]
    exact ⟨_, rfl⟩
  | ar =>
    obtain ⟨hready, -⟩ : s.status.phase = .ready ∧ s.status.posValid = true := by simpa [legal] using hlegal
    rw [perform, arEngine_of_load (h.loadBytes_ready hready).1]
    exact ⟨_, rfl⟩
  | crc =>
    have hready : s.status.phase = .ready := by simpa [legal] using hlegal
    rw [perform, crcEngine_of_load (h.loadBytes_ready hready).2]
    exact ⟨_, rfl⟩
  | arcrc =>
    obtain ⟨hready, -⟩ : s.status.phase = .ready ∧ s.status.posValid = true := by simpa [legal] using hlegal
    obtain ⟨hframes, hbytes⟩ := h.loadBytes_ready hready
    rw [perform, bothEngines_of_load hframes hbytes]
    exact ⟨_, rfl⟩
  | strip =>
    obtain ⟨hready, -⟩ : s.status.phase = .ready ∧ s.status.crcValid = true := by simpa [legal] using hlegal
    rw [perform, stripEngine_of_load (h.loadBytes_ready hready).2]
    exact ⟨_, rfl⟩
  | _ => exact ⟨_, rfl⟩

/-- In FAULT a command is performed without a read of the buffer, or ignored (60_exceptions R132). -/
theorem exec_completes_of_fault {s : State} (hp : s.status.phase = .fault) (i : Instr) :
    ∃ t, exec i s = .next t := by
  cases i with
  | nop => exact ⟨_, rfl⟩
  | clear => exact ⟨_, rfl⟩
  | get reg => exact ⟨_, rfl⟩
  | _ => exact ⟨_, unlessFault_of_fault hp _⟩

theorem State.Inv.exec_completes {s : State} {i : Instr} (h : s.Inv) (hwf : i.wellFormed s.cfg.hasStrip = true) :
    ∃ t, exec i s = .next t := by
  by_cases hp : s.status.phase = .fault
  · exact exec_completes_of_fault hp i
  cases hlegal : legal s i with
  | false => exact ⟨_, exec_of_not_legal hwf hp hlegal⟩
  | true =>
    cases harg : argumentError s i with
    | some err => exact ⟨_, exec_of_argumentError hwf hp hlegal harg⟩
    | none =>
      rw [exec_of_checks hwf hp hlegal harg]
      exact h.perform_completes hlegal harg

theorem execIllegal_completes (cmd : Word) (s : State) : ∃ t, execIllegal cmd s = .next t := by
  by_cases hp : s.status.phase = .fault
  · exact ⟨_, unlessFault_of_fault hp _⟩
  · exact ⟨_, unlessFault_of_ne hp _⟩

/-- Settles O58: a step idles, answers a word that is no command, or runs a command of the build. -/
theorem everyStepCompletes : Obligations.EveryStepCompletes := by
  unfold Obligations.EveryStepCompletes
  intro s h
  cases hw : s.presented with
  | none => exact ⟨s, by simp only [step, hw, idle]⟩
  | some w =>
    cases hdec : decode s.cfg.hasStrip w with
    | error e =>
      simp only [step, hw, hdec]
      exact execIllegal_completes w s.advance
    | ok i =>
      obtain ⟨-, hwf⟩ := decode_ok_iff.mp hdec
      simp only [step, hw, hdec]
      exact (h.advance hw).exec_completes hwf

/-! ### The phases -/

/-- An error taken leads to FAULT from another phase (10_state R18). -/
theorem IgnoredOrRaised.phase {s t : State} (hend : IgnoredOrRaised s t) :
    t.status.phase = s.status.phase ∨
      (s.status.phase ≠ .fault ∧ t.status.phase = .fault ∧ t.status.err ≠ none) := by
  rcases hend with ⟨-, rfl⟩ | ⟨hp, e, info, rfl, -⟩
  · exact .inl rfl
  · exact .inr ⟨hp, rfl, by simp [Status.faulted]⟩

/-- Of the commands performed, `SEAL`, `STRIP` and `CLEAR` change the phase (10_state R18). -/
theorem Effect.phase {s t : State} {i : Instr} (heff : Effect s i t) :
    t.status.phase = s.status.phase ∨ (i = .sealBuffer ∧ s.status.phase = .load ∧ t.status.phase = .ready) ∨
      (i = .strip ∧ s.status.phase = .ready ∧ t.status.phase = .stripped) ∨
      (i = .clear ∧ t.status.phase = .load) := by
  cases heff with
  | sealBuffer hload heven => exact .inr (.inl ⟨rfl, hload, rfl⟩)
  | strip cs hbuilt hready hcrc hbytes => exact .inr (.inr (.inl ⟨rfl, hready, rfl⟩))
  | clear => exact .inr (.inr (.inr ⟨rfl, rfl⟩))
  | _ => exact .inl rfl

/-- Settles O19: a word that is no command is ignored or raises, and a command is ignored, raises or is performed. -/
theorem phaseTransitions : Obligations.PhaseTransitions := by
  unfold Obligations.PhaseTransitions
  intro s t hstep
  rcases step_next hstep with ⟨-, rfl⟩ | ⟨w, hw, ⟨i, hdec, hexec⟩ | ⟨-, hend⟩⟩
  · exact .inl rfl
  · rcases exec_effect hexec with hend | heff
    · exact hend.phase.imp id fun hraised => ⟨w, hw, .inr (.inr (.inr hraised))⟩
    · rcases heff.phase with hsame | ⟨rfl, hfrom, hto⟩ | ⟨rfl, hfrom, hto⟩ | ⟨rfl, hto⟩
      · exact .inl hsame
      · exact .inr ⟨w, hw, .inl ⟨hdec, hfrom, hto⟩⟩
      · exact .inr ⟨w, hw, .inr (.inl ⟨hdec, hfrom, hto⟩)⟩
      · exact .inr ⟨w, hw, .inr (.inr (.inl ⟨hdec, hto⟩))⟩
  · exact hend.phase.imp id fun hraised => ⟨w, hw, .inr (.inr (.inr hraised))⟩

end Sys2Proof.Machine
end

