-- ==== Sys2Proof/Proofs/LoadCommands.lean ====
section
/-! PROOFS. The commands of the LOAD phase, `SETPOS`, `PUSH` and `SEAL` (spec/40_load_pack.md R74 to R76): each is its
checks and its effect as `exec_eq_checks` orders them, with the numbers they write. -/

namespace Sys2Proof.Machine

/-! ### SETPOS -/

/-- Settles O27: the bounds are the argument check, LOAD the table's phase. -/
theorem setposRecordsPosition : Obligations.SetposRecordsPosition := by
  unfold Obligations.SetposRecordsPosition
  intro s t n
  rw [← encode_setpos t n]
  refine ⟨decode_ok_iff.mpr ⟨rfl, rfl⟩, fun hload hone hmax htrack hle => ?_, fun hload hout => ?_,
    fun hload hfault => ?_⟩
  · exact exec_of_checks rfl (by simp [hload]) (by simp [legal, hload]) (if_pos ⟨hone, hmax, htrack, hle⟩)
  · exact exec_of_argumentError rfl (by simp [hload]) (by simp [legal, hload]) (if_neg hout)
  · exact exec_of_not_legal rfl hfault (by simp [legal, hload])

/-! ### PUSH -/

theorem sampleBytes_eq_ofNat (x : Sample) :
    sampleBytes x = [BitVec.ofNat 8 x.toNat, BitVec.ofNat 8 (x.toNat / 2 ^ 8)] := by
  rw [← Nat.shiftRight_eq_div_pow]
  rfl

theorem add_one_eq_ofNat (n : Word) : n + 1 = BitVec.ofNat 32 (n.toNat + 1) := by
  rw [BitVec.ofNat_add, BitVec.ofNat_toNat, BitVec.setWidth_eq, BitVec.ofNat_eq_ofNat]

/-- Settles O28: below `CAP` by `exec_push_of_room`, with a full buffer by the argument check. -/
theorem pushAppendsSample : Obligations.PushAppendsSample := by
  unfold Obligations.PushAppendsSample
  intro s x
  rw [← encode_push x]
  refine ⟨decode_ok_iff.mpr ⟨rfl, rfl⟩, fun hload hroom => ?_, fun hload hfull => ?_, fun hload hfault => ?_⟩
  · rw [exec_push_of_room x hload hroom, State.pushed, sampleBytes_eq_ofNat, add_one_eq_ofNat]
    rfl
  · exact exec_of_argumentError rfl (by simp [hload]) (by simp [legal, hload]) (if_pos hfull)
  · exact exec_of_not_legal rfl hfault (by simp [legal, hload])

/-! ### SEAL -/

theorem half_eq_ofNat (n : Word) : n / 2 = BitVec.ofNat 32 (n.toNat / 2) := by
  apply BitVec.eq_of_toNat_eq
  rw [BitVec.toNat_udiv, BitVec.toNat_ofNat, Nat.mod_eq_of_lt (by omega)]
  rfl

/-- Settles O30: parity is the argument check, and the halving is the natural number's. -/
theorem sealPairsSamples : Obligations.SealPairsSamples := by
  unfold Obligations.SealPairsSamples
  intro s
  refine ⟨decode_ok_iff.mpr ⟨rfl, rfl⟩, fun hload heven => ?_, fun hload hodd => ?_, fun hload hfault => ?_⟩
  · rw [← half_eq_ofNat]
    exact exec_of_checks rfl (by simp [hload]) (by simp [legal, hload]) (if_neg (by omega))
  · exact exec_of_argumentError rfl (by simp [hload]) (by simp [legal, hload]) (if_pos hodd)
  · exact exec_of_not_legal rfl hfault (by simp [legal, hload])

end Sys2Proof.Machine
end

