-- ==== Sys2Proof/Proofs/Packer.lean ====
section
/-! PROOFS. The sample-frame packer (spec/40_load_pack.md R73, R77, R78): a frame is two samples of the buffer,
the same for `PEEKF` and for the passes. -/

namespace Sys2Proof.Machine

/-! ### The packer -/

theorem littleEndian_lt (bs : List Byte) : littleEndian bs < 2 ^ (8 * bs.length) := by
  induction bs with
  | nil => simp [littleEndian]
  | cons b bs ih =>
    rw [littleEndian, List.length_cons, Nat.mul_succ, Nat.pow_add]
    omega

/-- The word of two samples holds its numbers: nothing is lost above bit 31 (40_load_pack R73). -/
theorem twoSamples_toNat (l r : Sample) :
    (BitVec.ofNat 32 (l.toNat + r.toNat * 2 ^ 16)).toNat = l.toNat + r.toNat * 2 ^ 16 := by
  rw [BitVec.toNat_ofNat]
  omega

theorem twoSamples_low (l r : Sample) : (BitVec.ofNat 32 (l.toNat + r.toNat * 2 ^ 16)).extractLsb' 0 16 = l := by
  apply BitVec.eq_of_toNat_eq
  rw [BitVec.extractLsb'_toNat, twoSamples_toNat, Nat.shiftRight_eq_div_pow]
  omega

theorem twoSamples_high (l r : Sample) : (BitVec.ofNat 32 (l.toNat + r.toNat * 2 ^ 16)).extractLsb' 16 16 = r := by
  apply BitVec.eq_of_toNat_eq
  rw [BitVec.extractLsb'_toNat, twoSamples_toNat, Nat.shiftRight_eq_div_pow]
  omega

section
variable {s : State} (h : s.BufferOk) (hcap : s.nsamp.toNat ≤ s.cfg.cap.toNat) {j : Nat} {w : Word}
  (hj : 2 * j + 1 < s.nsamp.toNat) (hw : s.frames[j]? = some w)
include h hcap hj hw

/-- Four bytes of the buffer are a frame of the passes' list (20_memory R43, 40_load_pack R73). -/
theorem State.BufferOk.memRead_of_frames : s.memRead (4 * j) 4 = .ok w.toNat := by
  have hlen := h.bytes_length
  have hbytes := littleEndian_lt ((s.bytes.drop (4 * j)).take 4)
  have hfits : 8 * ((s.bytes.drop (4 * j)).take 4).length = 32 := by
    rw [List.length_take, List.length_drop]
    omega
  rw [hfits] at hbytes
  obtain rfl := Option.some.inj (hw.symm.trans (framesOf_getElem s.bytes j (by omega)))
  rw [State.memRead, State.loadBytes_inside h hcap (by omega), BitVec.toNat_ofNat, Nat.mod_eq_of_lt hbytes]
  rfl

/-- `PEEKF`'s frame is the frame of the passes' list (40_load_pack R73, R77). -/
theorem State.BufferOk.frame_of_frames : s.frame j = .ok w := by
  rw [State.frame, h.memRead_of_frames hcap hj hw]
  exact congrArg Except.ok ((BitVec.ofNat_toNat 32 w).trans (BitVec.setWidth_eq w))

end

/-- Settles O31: `frames_getElem` gives the two samples, and the walk over the four bytes reads the same word. -/
theorem framePacksTwoSamples : Obligations.FramePacksTwoSamples := by
  unfold Obligations.FramePacksTwoSamples
  intro s h hcap
  refine ⟨h.frames_length, fun j hj => ?_⟩
  obtain ⟨l, r, hl, hr, hw⟩ := h.frames_getElem hj
  refine ⟨l, r, _, hl, hr, h.frame_of_frames hcap hj hw, hw, rfl, twoSamples_low l r, twoSamples_high l r, ?_⟩
  rw [h.memRead_of_frames hcap hj hw, twoSamples_toNat]

/-! ### The frames of a sealed buffer -/

theorem State.Inv.nsamp_of_ready {s : State} (h : s.Inv) (hready : s.status.phase = .ready) :
    s.nsamp.toNat = 2 * s.nframes.toNat := by
  obtain ⟨-, -, -, -, ⟨-, hsealed, -⟩, -⟩ := h
  exact (hsealed hready).1

/-- In READY every frame below `NFRAMES` has its two samples below `NSAMP` (10_state R35 (d)). -/
theorem State.Inv.frame_samples_lt {s : State} (h : s.Inv) (hready : s.status.phase = .ready) {j : Nat}
    (hj : j < s.nframes.toNat) : 2 * j + 1 < s.nsamp.toNat := by
  rw [h.nsamp_of_ready hready]
  omega

/-- A sealed buffer has `NFRAMES` frames (40_load_pack R76). -/
theorem State.Inv.frames_length {s : State} (h : s.Inv) (hready : s.status.phase = .ready) :
    s.frames.length = s.nframes.toNat := by
  have hcount := h.nsamp_of_ready hready
  obtain ⟨hbuf, -⟩ := h
  rw [hbuf.frames_length, hcount, Nat.mul_div_cancel_left _ two_pos]

/-- A frame of the passes' list as the number its two samples give (40_load_pack R73). -/
theorem State.BufferOk.frames_getD_toNat {s : State} (h : s.BufferOk) {j : Nat} (hj : 2 * j + 1 < s.nsamp.toNat) :
    (s.frames.getD j 0).toNat =
      (s.samples.getD (2 * j) 0).toNat + (s.samples.getD (2 * j + 1) 0).toNat * 2 ^ 16 := by
  obtain ⟨l, r, hl, hr, hw⟩ := h.frames_getElem hj
  simp only [List.getD_eq_getElem?_getD, hl, hr, hw, Option.getD_some, twoSamples_toNat]

/-! ### PEEKF -/

/-- Settles O32: in range `PEEKF` answers the frame of the two samples, and the bound is the argument check. -/
theorem peekfReturnsFrame : Obligations.PeekfReturnsFrame := by
  unfold Obligations.PeekfReturnsFrame
  intro s j
  rw [← encode_peekf j]
  refine ⟨decode_ok_iff.mpr ⟨rfl, rfl⟩, fun hinv hready hj => ?_, fun hready hj => ?_, fun hready hfault => ?_⟩
  · have hsamples := hinv.frame_samples_lt hready hj
    obtain ⟨hbuf, ⟨-, hcap, -⟩, -⟩ := hinv
    obtain ⟨l, r, hl, hr, hw⟩ := hbuf.frames_getElem hsamples
    exact ⟨l, r, hl, hr, exec_peekf_of_frame hready hj (hbuf.frame_of_frames hcap hsamples hw)⟩
  · exact exec_of_argumentError rfl (by simp [hready]) (by simp [legal, hready]) (if_neg (Nat.not_lt.mpr hj))
  · exact exec_of_not_legal rfl hfault (by simp [legal, hready])

end Sys2Proof.Machine
end

