-- ==== Sys2Proof/Proofs/ArSums.lean ====
section
/-! PROOFS. The AccurateRip pass in closed form (spec/41_accuraterip.md R90): what it adds to its two sums, as
sums over the frames the window admits. -/

namespace Sys2Proof.Machine

/-! ### The pass in closed form -/

theorem Window.admits_iff (w : Window) (m : Nat) :
    w.admits m = true ↔ w.sumFrom ≤ (m : Int) ∧ (m : Int) ≤ w.sumTo := by
  rw [Window.admits, Bool.and_eq_true, decide_eq_true_eq, decide_eq_true_eq]

/-- The sum over the frames whose multiplier the window admits, the first frame's being `m`, of a part `g` of their
products (41_accuraterip R90). -/
def Window.productSum (w : Window) (g : Nat → Nat) (m : Nat) (fs : List Word) : Nat :=
  ∑ j ∈ (Finset.range fs.length).filter (fun j => w.admits (m + j) = true), g ((fs.getD j 0).toNat * (m + j))

theorem Window.productSum_cons (w : Window) (g : Nat → Nat) (m : Nat) (f : Word) (fs : List Word) :
    w.productSum g m (f :: fs) = (if w.admits m then g (f.toNat * m) else 0) + w.productSum g (m + 1) fs := by
  simp only [Window.productSum, Finset.sum_filter, List.length_cons, Finset.sum_range_succ', List.getD_cons_succ,
    List.getD_cons_zero, Nat.add_zero, Nat.add_assoc, Nat.add_comm 1]
  exact Nat.add_comm _ _

/-- The pass adds to its two sums the products' and their high halves' sums, modulo 2^32 (41_accuraterip R88, R90). -/
theorem arPass_eq_productSum (w : Window) (m : Nat) (acc : Sums) (fs : List Word) :
    arPass w m acc fs =
      ⟨acc.lo + BitVec.ofNat 32 (w.productSum id m fs),
       acc.hi + BitVec.ofNat 32 (w.productSum (· / 2 ^ 32) m fs)⟩ := by
  induction fs generalizing m acc with
  | nil => simp [arPass, Window.productSum]
  | cons f fs ih =>
    rw [arPass, ih, accumulate, Window.productSum_cons, Window.productSum_cons]
    split
    · simp only [BitVec.ofNat_add, BitVec.add_assoc, id]
    · simp only [Nat.zero_add]

/-- Settles O34: the pass over the frames of a sealed buffer, each frame written as its two samples. -/
theorem arClosedForm : Obligations.ArClosedForm := by
  unfold Obligations.ArClosedForm
  intro s h hready hpos window frame product
  have hbuf : s.BufferOk := h.1
  have hlength := h.frames_length hready
  have hsum : ∀ g : Nat → Nat,
      (windowOf s.pos s.nframes).productSum g 1 s.frames = ∑ j ∈ window, g (product j) := by
    intro g
    rw [Window.productSum, hlength]
    refine Finset.sum_congr (Finset.filter_congr fun j _ => ?_) fun j hj => ?_
    · rw [Window.admits_iff, windowOf_eq, Nat.add_comm 1 j]
    · have hframe := Finset.mem_range.mp (Finset.mem_filter.mp hj).1
      rw [hbuf.frames_getD_toNat (h.frame_samples_lt hready hframe), Nat.add_comm 1 j]
  refine ⟨_, exec_ar_of_load hready hpos (h.loadBytes_ready hready).1, ?_, ?_, rfl, rfl⟩
  · show (arPass _ 1 ⟨0, 0⟩ s.frames).lo = _
    rw [arPass_eq_productSum, hsum]
    exact BitVec.zero_add _
  · show (arPass _ 1 ⟨0, 0⟩ s.frames).hi = _
    rw [arPass_eq_productSum, hsum (· / 2 ^ 32)]
    exact BitVec.zero_add _

end Sys2Proof.Machine
end

/-! PROOFS. What `AR` writes (spec/41_accuraterip.md R85, R89), which frames its window admits (R86, R93, R96), the size
of its products (R88, R95), and the relation between its two checksums (R92). -/

namespace Sys2Proof.Machine

/-! ### The command -/

/-- Settles O33: past its checks `AR` ends in `State.arFrom`, whose window is the one written out. -/
theorem arComputesChecksums : Obligations.ArComputesChecksums := by
  unfold Obligations.ArComputesChecksums
  intro s
  refine ⟨decode_ok_iff.mpr ⟨rfl, rfl⟩, fun h hready hpos => ?_, fun hready hfault => ?_, fun hready hpos => ?_⟩
  · rw [exec_ar_of_load hready hpos (h.loadBytes_ready hready).1, State.arFrom, windowOf_eq]
    rfl
  · exact exec_of_not_legal rfl hfault (by simp [legal, hready])
  · exact exec_of_not_legal rfl (by simp [hready]) (by simp [legal, hpos])

/-! ### The empty window -/

/-- A window whose upper end is not above `n` admits none of the multipliers 1 to `n` exactly when that end is below the
first multiplier the lower end allows (41_accuraterip R86). -/
theorem Window.admits_none_iff {w : Window} {n : Nat} (hto : w.sumTo ≤ n) :
    (∀ m : Nat, 1 ≤ m → m ≤ n → w.admits m = false) ↔ w.sumTo < max 1 w.sumFrom := by
  simp only [← Bool.not_eq_true, Window.admits_iff]
  constructor
  · intro hnone
    by_contra hfirst
    exact hnone (max 1 w.sumFrom).toNat (by omega) (by omega) (by omega)
  · intro hfirst m hm _ hadmits
    omega

theorem windowOf_sumTo_le (pos n : Word) : (windowOf pos n).sumTo ≤ n.toNat := by
  rw [windowOf_eq]
  dsimp only
  split <;> omega

/-- A pass that meets no admitted multiplier leaves its sums as they were (41_accuraterip R87). -/
theorem arPass_of_admits_none {w : Window} {m : Nat} {fs : List Word} (acc : Sums)
    (hnone : ∀ k, m ≤ k → k < m + fs.length → w.admits k = false) : arPass w m acc fs = acc := by
  induction fs generalizing m with
  | nil => rfl
  | cons f fs ih =>
    rw [List.length_cons] at hnone
    rw [arPass, accumulate, if_neg (by simp [hnone m (by omega) (by omega)])]
    exact ih fun k hk hlt => hnone k (by omega) (by omega)

/-- Settles O36: `Window.admits_none_iff` at the window's ends for each kind of position. -/
theorem emptyWindowByPosition : Obligations.EmptyWindowByPosition := by
  unfold Obligations.EmptyWindowByPosition
  intro pos n empty first last
  have hempty : empty ↔ (windowOf pos n).sumTo < max 1 (windowOf pos n).sumFrom :=
    Window.admits_none_iff (windowOf_sumTo_le pos n)
  simp only [windowOf_eq] at hempty
  refine ⟨fun hfirst hlast => ?_, fun hfirst hlast => ?_, fun hfirst hlast => ?_, fun hfirst hlast => ?_,
    fun hnone fs hlength => arPass_of_admits_none _ fun k hk hlt => hnone k hk (by omega)⟩
  · rw [if_neg hfirst, if_neg hlast] at hempty
    exact hempty.trans (by omega)
  · rw [if_pos hfirst, if_neg hlast] at hempty
    exact hempty.trans (by omega)
  · rw [if_neg hfirst, if_pos hlast] at hempty
    exact hempty.trans (by omega)
  · rw [if_pos hfirst, if_pos hlast] at hempty
    exact hempty.trans (by omega)

/-! ### The short last track -/

theorem windowOf_sumTo_of_last {pos n : Word} (hlast : pos.extractLsb' 0 8 = pos.extractLsb' 8 8) :
    (windowOf pos n).sumTo = (n.toNat : Int) - 2940 := by
  rw [windowOf_eq]
  exact if_pos hlast

/-- A negative upper end as `SUM_TO` holds it: the word reads back as the integer (41_accuraterip R96). -/
theorem ofInt_toInt_of_short {n : Nat} (hshort : n < 2940) :
    (BitVec.ofInt 32 ((n : Int) - 2940)).toInt = (n : Int) - 2940 := by
  rw [BitVec.toInt_ofInt, Int.bmod_eq_of_le] <;> omega

/-- The same word as the two's complement of the distance to `SKIP` (41_accuraterip R96). -/
theorem ofInt_eq_twosComplement {n : Nat} (hshort : n < 2940) :
    BitVec.ofInt 32 ((n : Int) - 2940) = BitVec.ofNat 32 (2 ^ 32 + n - 2940) := by
  apply BitVec.eq_of_toNat_eq
  rw [BitVec.toNat_ofInt, BitVec.toNat_ofNat]
  omega

/-- Settles O35: the upper end is negative, so the pass meets no admitted multiplier. -/
theorem shortLastTrackSumsNothing : Obligations.ShortLastTrackSumsNothing := by
  unfold Obligations.ShortLastTrackSumsNothing
  intro s h hready hpos hlast hshort
  have hto := windowOf_sumTo_of_last (n := s.nframes) hlast
  have hlength := h.frames_length hready
  have hnone := (Window.admits_none_iff (windowOf_sumTo_le s.pos s.nframes)).mpr (by omega)
  have hsums : arPass (windowOf s.pos s.nframes) 1 ⟨0, 0⟩ s.frames = ⟨0, 0⟩ :=
    arPass_of_admits_none _ fun k hk hlt => hnone k hk (by omega)
  have hsumTo : (s.arFrom s.frames).sumTo =
      BitVec.ofInt 32 ((s.nframes.toNat : Int) - 2940) := congrArg (BitVec.ofInt 32) hto
  exact ⟨_, exec_ar_of_load hready hpos (h.loadBytes_ready hready).1,
    hsumTo.trans (ofInt_eq_twosComplement hshort),
    (congrArg BitVec.toInt hsumTo).trans (ofInt_toInt_of_short hshort),
    congrArg Sums.lo hsums, congrArg Sums.hi hsums, congrArg Sums.lo hsums,
    congrArg (fun r => r.lo + r.hi) hsums, rfl⟩

/-! ### The products -/

/-- Half of the largest capacity bounds the frames, and so the multipliers (41_accuraterip R95). -/
theorem State.Inv.nframes_le {s : State} (h : s.Inv) : s.nframes.toNat ≤ 2 ^ 28 := by
  obtain ⟨-, ⟨⟨-, hmax⟩, -, hframes⟩, -⟩ := h
  omega

/-- Settles O37: a frame is below 2^32, its multiplier at most 2^28. -/
theorem productsNeverOverflow : Obligations.ProductsNeverOverflow := by
  unfold Obligations.ProductsNeverOverflow
  intro s j f h hready hf
  have hj : j + 1 ≤ s.nframes.toNat := by
    rw [← h.frames_length hready]
    exact (List.getElem?_eq_some_iff.mp hf).1
  have hm : j + 1 ≤ 2 ^ 28 := hj.trans h.nframes_le
  have hproduct : f.toNat * (j + 1) < 2 ^ 32 * (j + 1) := Nat.mul_lt_mul_of_pos_right f.isLt j.succ_pos
  exact ⟨hj, hm, by omega, Nat.div_lt_of_lt_mul hproduct⟩

/-! ### The two checksums -/

/-- Valid checksums differ by the high sum; without a result all three registers are 0 (41_accuraterip R92). -/
theorem State.Inv.arV2_sub_arV1 {s : State} (h : s.Inv) : s.arV2 - s.arV1 = s.csumHi := by
  obtain ⟨-, -, -, -, -, -, ⟨hset, hclear, -⟩, -⟩ := h
  cases hvalid : s.status.arValid with
  | true =>
    obtain ⟨-, hV1, hV2⟩ := hset hvalid
    rw [hV1, hV2, BitVec.add_comm, BitVec.add_sub_cancel]
  | false =>
    obtain ⟨-, -, -, hhi, hV1, hV2⟩ := hclear hvalid
    rw [hhi, hV1, hV2]
    rfl

/-- Settles O38: the invariant relates the registers, and every step keeps it. -/
theorem v2MinusV1IsHighSum : Obligations.V2MinusV1IsHighSum := by
  unfold Obligations.V2MinusV1IsHighSum
  intro s t h hstep
  exact (stepKeepsInvariant s t h hstep).arV2_sub_arV1

end Sys2Proof.Machine

-- ==== Sys2Proof/Proofs/CrcEngine.lean ====
section
/-! PROOFS. The CRC32 engine and the command `CRC` (spec/42_crc32.md R97 to R101): the division is linear in the
remainder, which gives the table form, and it runs over a concatenation part by part. -/

namespace Sys2Proof.Machine

/-! ### One byte as one table look-up (42_crc32 R99) -/

/-- A division step shifts the remainder and adds the polynomial when the bit shifted out is set (42_crc32 R98). -/
theorem crcBit_eq_xor (c : Word) : crcBit c = c >>> 1 ^^^ if c.getLsbD 0 then 0xEDB88320 else 0 := by
  unfold crcBit
  split
  · rfl
  · exact BitVec.xor_zero.symm

/-- The remainders form a vector space over the two-element field, and a division step is linear on it. -/
theorem crcBit_xor (c d : Word) : crcBit (c ^^^ d) = crcBit c ^^^ crcBit d := by
  have hpolynomial : ∀ a b : Bool, (if (a ^^ b) then 0xEDB88320 else 0 : Word) =
      (if a then 0xEDB88320 else 0) ^^^ (if b then 0xEDB88320 else 0) := by decide
  rw [crcBit_eq_xor, crcBit_eq_xor, crcBit_eq_xor, BitVec.ushiftRight_xor_distrib, BitVec.getLsbD_xor, hpolynomial]
  ac_rfl

theorem crcBits_xor (n : Nat) (c d : Word) : crcBits n (c ^^^ d) = crcBits n c ^^^ crcBits n d := by
  induction n generalizing c d with
  | zero => rfl
  | succ n ih => rw [crcBits, crcBit_xor, ih, crcBits, crcBits]

/-- As long as only zeros are shifted out, the division is a shift. -/
theorem crcBits_of_low_zero {n : Nat} {c : Word} (h : ∀ i < n, c.getLsbD i = false) : crcBits n c = c >>> n := by
  induction n generalizing c with
  | zero => simp [crcBits]
  | succ n ih =>
    have hbit : crcBit c = c >>> 1 := if_neg (ne_true_of_eq_false (h 0 n.succ_pos))
    have hlow : ∀ i < n, (c >>> 1).getLsbD i = false := fun i hi => by
      rw [BitVec.getLsbD_ushiftRight, h (1 + i) (by omega)]
    rw [crcBits, hbit, ih hlow, ← BitVec.shiftRight_add, Nat.add_comm]

/-- A remainder is its low byte plus the rest. -/
theorem low_byte_xor_rest (d : Word) : BitVec.setWidth 32 (d.extractLsb' 0 8) ^^^ d >>> 8 <<< 8 = d := by
  ext i hi
  by_cases hlow : i < 8
  · simp [hlow, BitVec.getLsbD_eq_getElem hi]
  · simp [hlow, show 8 + (i - 8) = i by omega, BitVec.getLsbD_eq_getElem hi]

/-- The eight steps of a byte divide the low byte, and shift the rest down. -/
theorem crcBits_eight (d : Word) : crcBits 8 d = crcBits 8 (BitVec.setWidth 32 (d.extractLsb' 0 8)) ^^^ d >>> 8 := by
  have hrest : crcBits 8 (d >>> 8 <<< 8) = d >>> 8 := by
    rw [crcBits_of_low_zero (fun i hi => by simp [hi])]
    ext i hi
    simpa using BitVec.lt_of_getLsbD
  conv_lhs => rw [← low_byte_xor_rest d, crcBits_xor, hrest]

/-- Above the low byte the entering byte changes nothing. -/
theorem xor_byte_shiftRight (c : Word) (b : Byte) : (c ^^^ BitVec.setWidth 32 b) >>> 8 = c >>> 8 := by
  ext i hi
  simp

/-- Settles O42: `crcBits_eight` at the remainder with the byte entered; the table's spot values are computed. -/
theorem crcTableForm : Obligations.CrcTableForm := by
  unfold Obligations.CrcTableForm
  refine ⟨fun c b => ?_, by decide⟩
  rw [crcByte, crcBits_eight, xor_byte_shiftRight]

/-! ### The remainder over a sequence (42_crc32 R101) -/

theorem crcRun_append (c : Word) (as bs : List Byte) : crcRun c (as ++ bs) = crcRun (crcRun c as) bs := by
  induction as generalizing c with
  | nil => rfl
  | cons a as ih => exact ih (crcByte c a)

/-- The engine fed one sample of a track whose silence is skipped: a zero sample is passed over, another enters low byte
first (42_crc32 R101). -/
def crcSkippingZero (c : Word) (x : Sample) : Word :=
  if x = 0 then c else crcByte (crcByte c (x.extractLsb' 0 8)) (x.extractLsb' 8 8)

/-- Stripping may be done on the fly. -/
theorem crcRun_bytesOf_strip (c : Word) (xs : List Sample) :
    crcRun c (bytesOf (strip xs)) = xs.foldl crcSkippingZero c := by
  induction xs generalizing c with
  | nil => rfl
  | cons x xs ih =>
    rw [List.foldl_cons, ← ih, strip, crcSkippingZero]
    split <;> rfl

/-- Settles O41: `crcRun_append` and `crcRun_bytesOf_strip` at the preset remainder. -/
theorem crcComposes : Obligations.CrcComposes := by
  unfold Obligations.CrcComposes
  exact ⟨crcRun_append, fun xs => congrArg (· ^^^ 0xFFFFFFFF) (crcRun_bytesOf_strip 0xFFFFFFFF xs)⟩

/-- Settles O40, by running the engine. -/
theorem crcCheckValues : Obligations.CrcCheckValues := by
  unfold Obligations.CrcCheckValues
  decide +kernel

/-! ### CRC (42_crc32 R100) -/

/-- A sealed buffer gives the pass the bytes of its samples. -/
theorem State.Inv.exec_crc {s : State} (h : s.Inv) (hready : s.status.phase = .ready) :
    exec .crc s = .next ((s.writeCrc (crc32Of (bytesOf s.samples))).respond 0) := by
  have hbuf : s.BufferOk := h.1
  rw [hbuf.bytesOf_samples]
  exact exec_crc_of_load hready (h.loadBytes_ready hready).2

theorem State.BufferOk.samples_eq_nil {s : State} (h : s.BufferOk) (hempty : s.nsamp = 0) : s.samples = [] := by
  rw [← List.length_eq_zero_iff, h.samples_length, hempty]
  rfl

/-- Settles O39: READY is the table's phase, and past it the pass runs over the bytes of all samples. -/
theorem crcComputesWholeBuffer : Obligations.CrcComputesWholeBuffer := by
  unfold Obligations.CrcComputesWholeBuffer
  intro s
  refine ⟨decode_ok_iff.mpr ⟨rfl, rfl⟩, fun h hready => ?_, fun hready hfault => ?_⟩
  · have hbuf : s.BufferOk := h.1
    refine ⟨h.exec_crc hready, hbuf.samples_length, fun hempty => ?_⟩
    rw [hbuf.samples_eq_nil hempty]
    decide
  · exact exec_of_not_legal rfl hfault (by simp [legal, hready])

end Sys2Proof.Machine
end

