-- ==== Sys2Proof/Proofs/Strip.lean ====
section
/-! PROOFS. The command `STRIP` (spec/42_crc32.md R102 to R105): what it writes, that the in-place loop over the buffer
ends in the same cells, and what follows for buffers that differ in their silence only. -/

namespace Sys2Proof.Machine

/-! ### The samples that are not zero (42_crc32 R103) -/

theorem strip_eq_self {xs : List Sample} (h : ∀ x ∈ xs, x ≠ 0) : strip xs = xs := by
  rw [strip_eq_filter, List.filter_eq_self]
  exact fun x hx => decide_eq_true (h x hx)

theorem ne_zero_of_mem_strip {xs : List Sample} {x : Sample} (h : x ∈ strip xs) : x ≠ 0 := by
  rw [strip_eq_filter] at h
  exact of_decide_eq_true (List.mem_filter.mp h).2

theorem strip_strip (xs : List Sample) : strip (strip xs) = strip xs := strip_eq_self fun _ => ne_zero_of_mem_strip

/-! ### STRIP (42_crc32 R102) -/

theorem exec_strip_of_load {s : State} {cs : List Byte} (hbuilt : s.cfg.hasStrip = true)
    (hready : s.status.phase = .ready) (hcrc : s.status.crcValid = true)
    (hbytes : s.loadBytes 0 (2 * s.nsamp.toNat) = .ok cs) :
    exec .strip s = .next ((s.writeStripped (strip (samplesOf cs))).respond 0) := by
  show execStrip s = _
  rw [execStrip, unlessFault_of_ne (by simp [hready]), if_pos hbuilt, requirePhase_of_eq hready,
    requireFlag_of_true hcrc, stripEngine_of_load hbytes]
  rfl

/-- A sealed buffer gives the pass its samples. -/
theorem State.Inv.exec_strip {s : State} (h : s.Inv) (hbuilt : s.cfg.hasStrip = true)
    (hready : s.status.phase = .ready) (hcrc : s.status.crcValid = true) :
    exec .strip s = .next ((s.writeStripped (strip s.samples)).respond 0) :=
  exec_strip_of_load hbuilt hready hcrc (h.loadBytes_ready hready).2

theorem State.BufferOk.strip_samples_length_le {s : State} (h : s.BufferOk) :
    (strip s.samples).length ≤ s.nsamp.toNat :=
  (strip_length_le s.samples).trans_eq h.samples_length

theorem decode_strip_word (hasStrip : Bool) :
    decode hasStrip 0x80000000 = if hasStrip then .ok .strip else .error .stripNotBuilt := by
  cases hasStrip <;> decide

/-- Settles O43: READY and `CRC_VALID` are the table's row, and past it the pass runs over all samples. -/
theorem stripCompactsAndComputes : Obligations.StripCompactsAndComputes := by
  unfold Obligations.StripCompactsAndComputes
  intro s
  refine ⟨decode_strip_word _, fun h hbuilt hready hcrc => ?_, fun hbuilt hready hfault => ?_,
    fun hbuilt hready hcrc => ?_, exec_strip_of_not_built⟩
  · have hbuf : s.BufferOk := h.1
    rw [← strip_eq_filter]
    refine ⟨h.exec_strip hbuilt hready hcrc, fun a => ?_, hbuf.strip_samples_length_le⟩
    have hread := Memory.readByte_ofBytes 0 a (bytesOf (strip s.samples))
    rwa [Nat.zero_add] at hread
  · exact exec_of_not_legal hbuilt hfault (by simp [legal, hready])
  · exact exec_of_not_legal hbuilt (by simp [hready]) (by simp [legal, hcrc])

/-- Settles O45: what `STRIP` writes is a function of the samples that are not zero. -/
theorem silenceDoesNotMatter : Obligations.SilenceDoesNotMatter := by
  unfold Obligations.SilenceDoesNotMatter
  refine ⟨fun s u hs hu hsBuilt huBuilt hsReady huReady hsCrc huCrc hsame => ?_, strip_strip⟩
  rw [← strip_eq_filter, ← strip_eq_filter] at hsame
  have hu' := hu.exec_strip huBuilt huReady huCrc
  rw [← hsame] at hu'
  exact ⟨_, _, hs.exec_strip hsBuilt hsReady hsCrc, hu', rfl, rfl, rfl⟩

/-- Settles O46: nothing is stripped, so the bytes compacted are those the buffer holds, whose CRC32 a set `CRC_VALID`
promises in `CRC32`. -/
theorem stripOfSoundingTrack : Obligations.StripOfSoundingTrack := by
  unfold Obligations.StripOfSoundingTrack
  intro s h htrue hbuilt hready hcrc hsounding
  have hbuf : s.BufferOk := h.1
  have hexec := h.exec_strip hbuilt hready hcrc
  rw [strip_eq_self hsounding] at hexec
  refine ⟨_, hexec, ?_, ?_, ?_⟩
  · rw [State.respond_buf, State.writeStripped_buf, hbuf.bytesOf_samples, ← hbuf.buf_eq]
  · rw [State.respond_nsamp, State.writeStripped_nsamp, hbuf.samples_length, BitVec.ofNat_toNat, BitVec.setWidth_eq]
  · rw [State.respond_crc32ss, State.writeStripped_crc32ss, hbuf.bytesOf_samples, State.respond_crc32,
      State.writeStripped_crc32, htrue.1 hready hcrc]

/-! ### A buffer that holds the bytes of samples, read and written in place -/

/-- A byte written over the one listed at its address. -/
theorem Memory.writeByte_ofBytes (a : Nat) (as bs : List Byte) (b v : Byte) :
    (Memory.ofBytes a (as ++ b :: bs)).writeByte (a + as.length) v = Memory.ofBytes a (as ++ v :: bs) := by
  induction as generalizing a with
  | nil => simp [Memory.ofBytes, Memory.writeByte]
  | cons c as ih =>
    rw [List.cons_append, Memory.ofBytes, Memory.writeByte, List.length_cons, if_neg (by omega), if_neg (by omega),
      show a + (as.length + 1) = a + 1 + as.length by omega, ih]
    rfl

/-- A sample written over another leaves the others. -/
theorem Memory.writeBytes_bytesOf (xs ys : List Sample) (y x : Sample) :
    (Memory.ofBytes 0 (bytesOf (xs ++ y :: ys))).writeBytes (2 * xs.length) (sampleBytes x) =
      Memory.ofBytes 0 (bytesOf (xs ++ x :: ys)) := by
  have hlow := Memory.writeByte_ofBytes 0 (bytesOf xs) (y.extractLsb' 8 8 :: bytesOf ys) (y.extractLsb' 0 8)
    (x.extractLsb' 0 8)
  have hhigh := Memory.writeByte_ofBytes 0 (bytesOf xs ++ [x.extractLsb' 0 8]) (bytesOf ys) (y.extractLsb' 8 8)
    (x.extractLsb' 8 8)
  simp only [List.append_assoc, List.length_append, bytesOf_length, List.singleton_append, List.length_singleton,
    Nat.zero_add] at hlow hhigh
  simp only [bytesOf_append, bytesOf, sampleBytes, List.cons_append, List.nil_append, Memory.writeBytes, hlow, hhigh]

/-- A sample read where it lies. -/
theorem Memory.readBytes_bytesOf (xs ys : List Sample) (x : Sample) :
    (Memory.ofBytes 0 (bytesOf (xs ++ x :: ys))).readBytes (2 * xs.length) 2 = some (sampleBytes x) := by
  have hread := Memory.readBytes_ofBytes_from 0 2 (2 * xs.length) (bytesOf (xs ++ x :: ys))
    (by rw [bytesOf_length, List.length_append, List.length_cons]; omega)
  rw [Nat.zero_add] at hread
  rw [hread, bytesOf_append, ← bytesOf_length xs, List.drop_left]
  rfl

theorem Memory.ofBytes_append (a : Nat) (as bs : List Byte) :
    Memory.ofBytes a (as ++ bs) = Memory.ofBytes a as ++ Memory.ofBytes (a + as.length) bs := by
  induction as generalizing a with
  | nil => rfl
  | cons c as ih =>
    rw [List.cons_append, Memory.ofBytes, ih, List.length_cons, show a + (as.length + 1) = a + 1 + as.length by omega]
    rfl

theorem Memory.mem_ofBytes {a : Nat} {bs : List Byte} {c : Host.Cell} (h : c ∈ Memory.ofBytes a bs) :
    a ≤ c.1 ∧ c.1 < a + bs.length := by
  have haddr : c.1 ∈ (Memory.ofBytes a bs).map Prod.fst := List.mem_map_of_mem h
  rwa [Memory.map_fst_ofBytes, List.mem_range'_1] at haddr

/-- Cutting the buffer behind its first samples leaves exactly their bytes. -/
theorem truncateTo_bytesOf (xs ys : List Sample) :
    truncateTo xs.length (Memory.ofBytes 0 (bytesOf (xs ++ ys))) = Memory.ofBytes 0 (bytesOf xs) := by
  rw [truncateTo, bytesOf_append, Memory.ofBytes_append, List.filter_append, bytesOf_length,
    List.filter_eq_self.mpr, List.filter_eq_nil_iff.mpr, List.append_nil]
  · intro c hc
    obtain ⟨hbehind, -⟩ := Memory.mem_ofBytes hc
    simpa using hbehind
  · intro c hc
    obtain ⟨-, hfront⟩ := Memory.mem_ofBytes hc
    simpa [bytesOf_length] using hfront

/-! ### The in-place loop (42_crc32 R102, R104) -/

theorem compactLoop_succ_of_read {buf : Memory} {i : Nat} {x : Sample} (k n : Nat)
    (h : buf.readBytes (2 * i) 2 = some (sampleBytes x)) :
    compactLoop buf i k (n + 1) =
      if x = 0 then compactLoop buf (i + 1) k n
      else compactLoop (buf.writeBytes (2 * k) (sampleBytes x)) (i + 1) (k + 1) n := by
  have hx : BitVec.ofNat 16 (littleEndian (sampleBytes x)) = x := littleEndian_sampleBytes x
  rw [compactLoop, h]
  simp only [hx]

/-- The loop's invariant: below the write index lie the survivors `kept`, between it and the read index cells already
read, `stale`, and from the read index on the samples `rest` still to look at. -/
theorem compactLoop_eq (rest kept stale : List Sample) :
    ∃ behind, compactLoop (Memory.ofBytes 0 (bytesOf (kept ++ (stale ++ rest)))) (kept.length + stale.length)
        kept.length rest.length =
      some (Memory.ofBytes 0 (bytesOf (kept ++ strip rest ++ behind)), (kept ++ strip rest).length) := by
  induction rest generalizing kept stale with
  | nil => exact ⟨stale, by simp [compactLoop, strip]⟩
  | cons x rest ih =>
    have hread := Memory.readBytes_bytesOf (kept ++ stale) rest x
    rw [List.append_assoc, List.length_append] at hread
    rw [List.length_cons, compactLoop_succ_of_read _ _ hread, strip]
    split
    · simpa [Nat.add_assoc] using ih kept (stale ++ [x])
    · obtain ⟨y, ys, hys⟩ : ∃ y ys, stale ++ [x] = y :: ys := List.exists_cons_of_ne_nil (by simp)
      have hcells : stale ++ x :: rest = y :: (ys ++ rest) := by rw [List.append_cons, hys, List.cons_append]
      have hlength : stale.length = ys.length := by simpa using congrArg List.length hys
      rw [hcells, Memory.writeBytes_bytesOf]
      simpa [hlength, Nat.add_comm, Nat.add_left_comm, Nat.add_assoc] using ih (kept ++ [x]) ys

/-- The loop over a whole buffer moves the survivors to its front. -/
theorem State.BufferOk.compactLoop_samples {s : State} (h : s.BufferOk) :
    ∃ behind, compactLoop s.buf 0 0 s.nsamp.toNat =
      some (Memory.ofBytes 0 (bytesOf (strip s.samples ++ behind)), (strip s.samples).length) := by
  have hloop := compactLoop_eq s.samples [] []
  simpa [h.samples_length, h.bytesOf_samples, ← h.buf_eq] using hloop

/-- Settles O44: the loop ends with the survivors in front, and behind them cells that the cut drops. -/
theorem stripIsTheInPlaceLoop : Obligations.StripIsTheInPlaceLoop := by
  unfold Obligations.StripIsTheInPlaceLoop
  intro s h hbuilt hready hcrc
  have hbuf : s.BufferOk := h.1
  obtain ⟨behind, hloop⟩ := hbuf.compactLoop_samples
  refine ⟨_, _, _, hloop, hbuf.strip_samples_length_le, h.exec_strip hbuilt hready hcrc, ?_, ?_, ?_⟩
  · rw [truncateTo_bytesOf]
    rfl
  · exact Nat.mod_eq_of_lt (hbuf.strip_samples_length_le.trans_lt s.nsamp.isLt)
  · rw [truncateTo_bytesOf, Memory.map_snd_ofBytes]
    rfl

end Sys2Proof.Machine
end

