-- ==== Sys2Proof/Proofs/Sequencing.lean ====
section
/-! PROOFS. The sequencing and system commands `NOP`, `ARCRC`, `CLEAR` and `GET` (spec/43_sequencing.md R111 to R114):
three are performed in every phase, FAULT included, and `ARCRC` is its two passes in either order. -/

namespace Sys2Proof.Machine

/-! ### NOP -/

/-- Settles O25: `NOP` has no check to pass, and 0x00000001 has a reserved bit set. -/
theorem nopDoesNothing : Obligations.NopDoesNothing := by
  unfold Obligations.NopDoesNothing
  exact fun s => ⟨rfl, decode_ok_iff.mpr ⟨rfl, rfl⟩, decode_reservedBits _ (by decide)⟩

/-! ### CLEAR -/

/-- What `CLEAR` leaves is the reset state of the build, but for the response and the harness (10_state R33). -/
theorem State.cleared_respond_eq_resetWith (s : State) :
    s.cleared.respond 0 = { State.resetWith s.cfg with rsp := some ⟨0, 0⟩, program := s.program, pc := s.pc } := rfl

/-- Of the ways a step changes the phase, only `CLEAR` starts in FAULT. -/
theorem step_leaves_fault {s t : State} (hfault : s.status.phase = .fault) (hstep : step s = .next t)
    (hleft : t.status.phase ≠ .fault) :
    ∃ w, s.program[s.pc]? = some w ∧ decode s.cfg.hasStrip w = .ok .clear := by
  rcases phaseTransitions s t hstep with hsame | ⟨w, hw, ⟨-, hload, -⟩ | ⟨-, hready, -⟩ | ⟨hclear, -⟩ | ⟨hne, -, -⟩⟩
  · exact absurd (hsame.trans hfault) hleft
  · cases hfault.symm.trans hload
  · cases hfault.symm.trans hready
  · exact ⟨w, hw, hclear⟩
  · exact absurd hfault hne

/-- Settles O26: the cleared state is the reset state field by field, and the phases change only as the table says. -/
theorem clearIsReset : Obligations.ClearIsReset := by
  unfold Obligations.ClearIsReset
  intro s
  exact ⟨congrArg Host.Outcome.next s.cleared_respond_eq_resetWith, decode_ok_iff.mpr ⟨rfl, rfl⟩,
    decode_reservedBits _ (by decide), fun t => step_leaves_fault⟩

/-! ### GET -/

/-- The sixteen registers in the order of their numbers (10_state R14, R29). -/
def State.registers (s : State) : List Word :=
  [s.status.word, s.errinfo, s.pos, s.nsamp, s.nframes, s.sumFrom, s.sumTo, s.csumLo, s.csumHi, s.arV1, s.arV2,
    s.crc32, s.crc32ss, s.cfg.cap, if s.cfg.hasStrip then 1 else 0, 2940]

theorem State.registers_getElem_num (s : State) (r : Reg) : s.registers[r.num.toNat]? = some (s.readReg r) := by
  cases r with
  | config =>
    show some (if s.cfg.hasStrip then 1 else 0) = some (BitVec.setWidth 32 (BitVec.ofBool s.cfg.hasStrip))
    cases s.cfg.hasStrip <;> rfl
  | _ => rfl

theorem encode_get_ofNum (n : BitVec 4) : encode (.get (Reg.ofNum n)) = BitVec.ofNat 32 (0x90000000 + n.toNat) := by
  rw [encode, Reg.num_ofNum]
  rfl

/-- A result register whose flag is 0 reads 0 (10_state R34): the register's number is that of a register the invariant
holds at 0. -/
theorem State.ResultOk.readReg_eq_zero {s : State} (h : s.ResultOk) {n : BitVec 4}
    (hinvalid : 5 ≤ n.toNat ∧ n.toNat ≤ 10 ∧ s.status.arValid = false ∨ n.toNat = 11 ∧ s.status.crcValid = false ∨
      n.toNat = 12 ∧ s.status.ssValid = false) :
    s.readReg (Reg.ofNum n) = 0 := by
  obtain ⟨-, har, -, hcrc, hss⟩ := h
  rcases hinvalid with ⟨hlow, hhigh, hflag⟩ | ⟨hn, hflag⟩ | ⟨hn, hflag⟩
  · obtain ⟨hfrom, hto, hlo, hhi, hv1, hv2⟩ := har hflag
    have hn : n = 5 ∨ n = 6 ∨ n = 7 ∨ n = 8 ∨ n = 9 ∨ n = 10 := by bv_omega
    rcases hn with rfl | rfl | rfl | rfl | rfl | rfl
    exacts [hfrom, hto, hlo, hhi, hv1, hv2]
  · obtain rfl : n = 11 := BitVec.eq_of_toNat_eq hn
    exact hcrc hflag
  · obtain rfl : n = 12 := BitVec.eq_of_toNat_eq hn
    exact hss hflag

/-- Settles O21: `GET` has no check to pass and answers the register its number names. -/
theorem getReturnsRegister : Obligations.GetReturnsRegister := by
  unfold Obligations.GetReturnsRegister
  intro s n
  have hexec : exec (.get (Reg.ofNum n)) s = .next (s.respond (s.readReg (Reg.ofNum n))) := rfl
  refine ⟨⟨s.readReg (Reg.ofNum n), ?_, decode_ok_iff.mpr ⟨encode_get_ofNum n, rfl⟩, hexec⟩, fun h hinvalid => ?_⟩
  · have hlisted := s.registers_getElem_num (Reg.ofNum n)
    rwa [Reg.num_ofNum] at hlisted
  · obtain ⟨-, -, -, -, -, -, hresult, -⟩ := h
    rw [hexec, hresult.readReg_eq_zero hinvalid]
    rfl

/-! ### ARCRC -/

/-- Neither pass writes what the other reads or writes, so their order does not matter (20_memory R52). -/
theorem State.arFrom_writeCrc_comm (s : State) (fs : List Word) (v : Word) :
    (s.arFrom fs).writeCrc v = (s.writeCrc v).arFrom fs := rfl

section
variable {s : State} (h : s.Inv) (hready : s.status.phase = .ready) (hpos : s.status.posValid = true)
include h hready hpos

/-- A sealed buffer gives the two passes its frames and the bytes of its samples. -/
theorem State.Inv.exec_arcrc :
    exec .arcrc s = .next (((s.arFrom s.frames).writeCrc (crc32Of s.bytes)).respond 0) :=
  exec_arcrc_of_load hready hpos (h.loadBytes_ready hready).1 (h.loadBytes_ready hready).2

theorem State.Inv.exec_ar_then_crc :
    exec .ar s = .next ((s.arFrom s.frames).respond 0) ∧
      exec .crc ((s.arFrom s.frames).respond 0) =
        .next (((s.arFrom s.frames).writeCrc (crc32Of s.bytes)).respond 0) := by
  obtain ⟨hframes, hbytes⟩ := h.loadBytes_ready hready
  exact ⟨exec_ar_of_load hready hpos hframes,
    exec_crc_of_load (s := (s.arFrom s.frames).respond 0) hready hbytes⟩

theorem State.Inv.exec_crc_then_ar :
    exec .crc s = .next ((s.writeCrc (crc32Of s.bytes)).respond 0) ∧
      exec .ar ((s.writeCrc (crc32Of s.bytes)).respond 0) =
        .next (((s.arFrom s.frames).writeCrc (crc32Of s.bytes)).respond 0) := by
  obtain ⟨hframes, hbytes⟩ := h.loadBytes_ready hready
  rw [State.arFrom_writeCrc_comm]
  exact ⟨exec_crc_of_load hready hbytes,
    exec_ar_of_load (s := (s.writeCrc (crc32Of s.bytes)).respond 0) hready hpos hframes⟩

end

/-- Settles O47: each pass leaves the other's checks and reads as they were, and READY and `POS_VALID` are the table's
row. -/
theorem arcrcIsBothPasses : Obligations.ArcrcIsBothPasses := by
  unfold Obligations.ArcrcIsBothPasses
  intro s
  refine ⟨decode_ok_iff.mpr ⟨rfl, rfl⟩, fun h hready hpos => ?_, fun hready hfault => ?_, fun hready hpos => ?_⟩
  · have hbuf : s.BufferOk := h.1
    obtain ⟨har, hthenCrc⟩ := h.exec_ar_then_crc hready hpos
    obtain ⟨hcrc, hthenAr⟩ := h.exec_crc_then_ar hready hpos
    refine ⟨_, _, _, h.exec_arcrc hready hpos, ?_, har, hthenCrc, hcrc, hthenAr⟩
    rw [hbuf.bytesOf_samples]
    rfl
  · exact exec_of_not_legal rfl hfault (by simp [legal, hready])
  · exact exec_of_not_legal rfl (by simp [hready]) (by simp [legal, hpos])

end Sys2Proof.Machine
end

