-- ==== Sys2Proof/Proofs/Exceptions.lean ====
section
/-! PROOFS. Errors (spec/60_exceptions.md R122 to R132): what fault entry leaves, what FAULT still performs, and which
error a transaction raises. -/

namespace Sys2Proof.Machine

/-! ### FAULT (60_exceptions R132) -/

/-- In FAULT every command but `GET` and `CLEAR` is ignored. -/
theorem exec_ignored_of_fault {s : State} {i : Instr} (hp : s.status.phase = .fault) (hget : ∀ r, i ≠ .get r)
    (hclear : i ≠ .clear) : exec i s = .next (s.respond 0) := by
  cases i with
  | nop => rfl
  | clear => exact absurd rfl hclear
  | get r => exact absurd rfl (hget r)
  | _ => exact unlessFault_of_fault hp _

section
variable {s : State} {w : Word} (hw : s.program[s.pc]? = some w) (hp : s.status.phase = .fault)
include hw hp

/-- In FAULT every word but a `GET` and `CLEAR` is ignored, whether it is a command or not. -/
theorem step_ignored_of_fault (hget : ∀ r, decode s.cfg.hasStrip w ≠ .ok (.get r))
    (hclear : decode s.cfg.hasStrip w ≠ .ok .clear) : step s = .next (s.advance.respond 0) := by
  cases hdec : decode s.cfg.hasStrip w with
  | error e => exact (step_of_decode_error hw hdec).2 hp
  | ok i =>
    refine (stepRunsDecodedCommand s w i hw hdec).trans (exec_ignored_of_fault (s := s.advance) hp ?_ ?_)
    · rintro r rfl
      exact hget r hdec
    · rintro rfl
      exact hclear hdec

/-- In FAULT a word that is not `CLEAR` changes nothing but the response and the host's index. -/
theorem step_responds_of_fault (hclear : decode s.cfg.hasStrip w ≠ .ok .clear) :
    ∃ d, step s = .next (s.advance.respond d) := by
  by_cases hget : ∃ r, decode s.cfg.hasStrip w = .ok (.get r)
  · obtain ⟨r, hdec⟩ := hget
    exact ⟨_, stepRunsDecodedCommand s w _ hw hdec⟩
  · exact ⟨0, step_ignored_of_fault hw hp (not_exists.mp hget) hclear⟩

end

/-- Settles O16: `GET` and `CLEAR` have no check to pass, and `step_ignored_of_fault` is the rest. -/
theorem faultPhaseIgnores : Obligations.FaultPhaseIgnores := by
  unfold Obligations.FaultPhaseIgnores
  intro s w hw hp
  refine ⟨fun r hdec => stepRunsDecodedCommand s w _ hw hdec, fun hdec => ?_, step_ignored_of_fault hw hp⟩
  rw [stepRunsDecodedCommand s w _ hw hdec]
  exact congrArg Host.Outcome.next s.advance.cleared_respond_eq_resetWith

/-! ### The first failing check (60_exceptions R127, R131) -/

/-- Where the encoding check passes, the table and then the argument are checked. -/
theorem transactionError_of_decode_ok {s : State} {w : Word} {i : Instr} (hdec : decode s.cfg.hasStrip w = .ok i) :
    transactionError s w = if legal s i = true then argumentError s i else some (.sequence, w) := by
  simp only [transactionError, hdec]

theorem transactionError_of_decode_error {s : State} {w : Word} {e : Illegal}
    (hdec : decode s.cfg.hasStrip w = .error e) : transactionError s w = some (.illegalCommand, w) := by
  simp only [transactionError, hdec]

section
variable {s : State} {w : Word} (hw : s.program[s.pc]? = some w) (hp : s.status.phase ≠ .fault)
include hw hp

/-- Outside FAULT a step raises the error of its first failing check, in every state. -/
theorem step_of_transactionError {e : ErrorKind} {info : Word} (herr : transactionError s w = some (e, info)) :
    step s = raise e info s.advance := by
  cases hdec : decode s.cfg.hasStrip w with
  | error _ =>
    cases (transactionError_of_decode_error hdec).symm.trans herr
    exact (step_of_decode_error hw hdec).1 hp
  | ok i =>
    obtain ⟨hword, hwf⟩ := decode_ok_iff.mp hdec
    rw [transactionError_of_decode_ok hdec] at herr
    refine (stepRunsDecodedCommand s w i hw hdec).trans ?_
    split at herr
    · next hlegal => exact exec_of_argumentError (s := s.advance) hwf hp hlegal herr
    · next hlegal =>
      cases herr
      rw [← hword]
      exact exec_of_not_legal (s := s.advance) hwf hp (Bool.eq_false_iff.mpr hlegal)

/-- Outside FAULT a step whose checks all pass performs its command. -/
theorem step_of_no_transactionError (hnone : transactionError s w = none) :
    ∃ i, legal s.advance i = true ∧ argumentError s.advance i = none ∧ step s = perform i s.advance := by
  cases hdec : decode s.cfg.hasStrip w with
  | error _ => cases (transactionError_of_decode_error hdec).symm.trans hnone
  | ok i =>
    obtain ⟨-, hwf⟩ := decode_ok_iff.mp hdec
    rw [transactionError_of_decode_ok hdec] at hnone
    split at hnone
    · next hlegal =>
      exact ⟨i, hlegal, hnone, (stepRunsDecodedCommand s w i hw hdec).trans
        (exec_of_checks (s := s.advance) hwf hp hlegal hnone)⟩
    · cases hnone

end

/-- Outside FAULT no error is recorded (10_state R20, R21, R35 (a)). -/
theorem State.Inv.no_error {s : State} (h : s.Inv) (hp : s.status.phase ≠ .fault) :
    s.status.err = none ∧ s.errinfo = 0 := by
  obtain ⟨-, -, ⟨hfault, hinfo, -⟩, -⟩ := h
  have hnone : s.status.err = none := not_not.mp (mt hfault.mp hp)
  exact ⟨hnone, hinfo hnone⟩

/-- Settles O17: outside FAULT the failing check is raised, or the command performed completes, does not lead to FAULT,
and leaves a state that meets the invariant; in FAULT the step only responds. -/
theorem firstFailingCheckWins : Obligations.FirstFailingCheckWins := by
  unfold Obligations.FirstFailingCheckWins
  intro s w h hw
  refine ⟨fun hp => ⟨fun e info => step_of_transactionError hw hp, fun hnone => ?_⟩, fun hp hclear => ?_⟩
  · obtain ⟨i, hlegal, harg, hstep⟩ := step_of_no_transactionError hw hp hnone
    obtain ⟨t, ht⟩ := (h.advance hw).perform_completes hlegal harg
    have htp : t.status.phase ≠ .fault := perform_phase (s := s.advance) hp ht
    have htinv : t.Inv := stepKeepsInvariant s t h (hstep.trans ht)
    exact ⟨t, hstep.trans ht, htp, htinv.no_error htp⟩
  · obtain ⟨d, hstep⟩ := step_responds_of_fault hw hp hclear
    exact ⟨_, hstep, rfl, rfl⟩

/-! ### Fault entry (60_exceptions R130) -/

/-- The status word of FAULT is the code above `PHASE` = 3. -/
theorem Status.word_faulted (e : ErrorKind) :
    (Status.faulted e).word = (BitVec.setWidth 32 e.code <<< 8) ||| 3 := by
  cases e <;> rfl

/-- Settles O15: fault entry is the record update written out, and each kind has its code (R122). -/
theorem faultEntryClearsAndRecords : Obligations.FaultEntryClearsAndRecords := by
  unfold Obligations.FaultEntryClearsAndRecords
  intro e info s
  refine ⟨rfl, Status.word_faulted e, ?_⟩
  cases e <;> rfl

end Sys2Proof.Machine
end

