-- ==== Sys2Proof/Proofs/ResetAndIdle.lean ====
section
/-! PROOFS. The state reset leaves and the step that presents no command (spec/70_reset_and_hazards.md R141, R143). -/

namespace Sys2Proof.Machine

/-! ### Reset -/

/-- `STATUS` after reset reads 0: LOAD has code 0, and neither a flag nor an error is set (10_state R33). -/
theorem Status.word_initial : Status.initial.word = 0 := by decide

/-- `CONFIG` reads `HAS_STRIP` in bit 0 and 0 above (10_state R29). -/
theorem State.readReg_config (s : State) : s.readReg .config = if s.cfg.hasStrip then 1 else 0 :=
  (Option.some.inj (s.registers_getElem_num .config)).symm

/-- Settles O14: the registers' reset values stand in `State.resetWith`; its status word and `CONFIG` are the two that
are computed. -/
theorem resetState : Obligations.ResetState := by
  unfold Obligations.ResetState
  intro cfg s
  have hstatus : s.status.word = 0 := Status.word_initial
  have hconfig : s.readReg .config = if cfg.hasStrip then 1 else 0 := s.readReg_config
  exact ⟨hstatus, rfl, rfl, rfl, rfl, rfl, rfl, rfl, rfl, rfl, rfl, rfl, rfl, rfl, rfl, rfl, hconfig, rfl, rfl⟩

/-! ### The idle step -/

/-- A step that finds no command presented idles. -/
theorem step_of_presented_none {s : State} (h : s.presented = none) : step s = .next s := by
  simp only [step, h, idle]

/-- Settles O6: the index stands past the end of the host's list exactly where no command is presented. -/
theorem stepWithoutCommandHoldsState : Obligations.StepWithoutCommandHoldsState := by
  unfold Obligations.StepWithoutCommandHoldsState
  intro s hnone
  exact step_of_presented_none hnone

end Sys2Proof.Machine
end
